-- ==== Sys2Proof/Word.lean ====
section
/-! DEFINITION. The one value type of the machine: the tape cell, the operand, the input and the output value
(spec/00_scope.md R6, R8: "signed 64-bit integers"). -/

namespace Sys2Proof

/-- An int64 (R8): 64 bits whose value is `BitVec.toInt`, in `[-2^63, 2^63 - 1]`. All arithmetic of the rules is on
that value, exactly, in `Int`. -/
abbrev Word := BitVec 64

end Sys2Proof
end

