-- ==== Sys2Proof/Syntax.lean ====
section
/-! DEFINITION. The instructions as syntax: addressing modes (spec/30_encoding.md R84), opcodes with their parameter
roles and formats (R87, R88), and one constructor per row of spec/opcode_table.json. -/

namespace Sys2Proof

/-- An addressing mode (R84). `noMode d` is the mode digit `3 + d`, which is no mode: R94 examines a mode digit only
when its parameter is accessed, so an instruction carries it until then (log 17). -/
inductive Mode where
  | position
  | immediate
  | relative
  | noMode (d : Fin 7)
  deriving DecidableEq, Repr

/-- What a parameter is used for (R87). -/
inductive Role where
  | source
  | destination
  deriving DecidableEq, Repr

/-- The five formats of R88. -/
inductive Format where
  | F3
  | F2
  | FR
  | FW
  | F0
  deriving DecidableEq, Repr

/-- The ten opcodes (R87, R91). -/
inductive Opcode where
  | add
  | multiply
  | input
  | output
  | jumpIfTrue
  | jumpIfFalse
  | lessThan
  | equals
  | adjustRelativeBase
  | halt
  deriving DecidableEq, Repr

/-- Format of an opcode (R87, last column). -/
def Opcode.format : Opcode → Format
  | .add | .multiply | .lessThan | .equals => .F3
  | .jumpIfTrue | .jumpIfFalse => .F2
  | .output | .adjustRelativeBase => .FR
  | .input => .FW
  | .halt => .F0

/-- The roles of a format's parameter cells, in order (R88). -/
def Format.roles : Format → List Role
  | .F3 => [.source, .source, .destination]
  | .F2 => [.source, .source]
  | .FR => [.source]
  | .FW => [.destination]
  | .F0 => []

/-- The instructions: one constructor per row of spec/opcode_table.json, with the mode of each parameter the
instruction has (R87). The parameters' literals stay on the tape, where spec/40_execute_cycle.md R114 reads them while
the instruction executes (log 11). -/
inductive Instr where
  | add (m1 m2 m3 : Mode)
  | multiply (m1 m2 m3 : Mode)
  | input (m1 : Mode)
  | output (m1 : Mode)
  | jumpIfTrue (m1 m2 : Mode)
  | jumpIfFalse (m1 m2 : Mode)
  | lessThan (m1 m2 m3 : Mode)
  | equals (m1 m2 m3 : Mode)
  | adjustRelativeBase (m1 : Mode)
  | halt
  deriving DecidableEq, Repr

/-- The opcode of an instruction. -/
def Instr.opcode : Instr → Opcode
  | .add _ _ _ => .add
  | .multiply _ _ _ => .multiply
  | .input _ => .input
  | .output _ => .output
  | .jumpIfTrue _ _ => .jumpIfTrue
  | .jumpIfFalse _ _ => .jumpIfFalse
  | .lessThan _ _ _ => .lessThan
  | .equals _ _ _ => .equals
  | .adjustRelativeBase _ => .adjustRelativeBase
  | .halt => .halt

/-- The modes of an instruction's parameters, in parameter order. -/
def Instr.modes : Instr → List Mode
  | .add m1 m2 m3 => [m1, m2, m3]
  | .multiply m1 m2 m3 => [m1, m2, m3]
  | .input m1 => [m1]
  | .output m1 => [m1]
  | .jumpIfTrue m1 m2 => [m1, m2]
  | .jumpIfFalse m1 m2 => [m1, m2]
  | .lessThan m1 m2 m3 => [m1, m2, m3]
  | .equals m1 m2 m3 => [m1, m2, m3]
  | .adjustRelativeBase m1 => [m1]
  | .halt => []

/-- The roles of an instruction's parameters (R87). -/
def Instr.roles (i : Instr) : List Role :=
  i.opcode.format.roles

/-- `n`, the number of parameters (R87). -/
def Instr.paramCount (i : Instr) : Nat :=
  i.roles.length

/-- The length in cells, `1 + n` (R80, R90). -/
def Instr.length (i : Instr) : Nat :=
  1 + i.paramCount

end Sys2Proof
end

