-- ==== Sys2Proof/WellFormed.lean ====
section
/-! DEFINITION. Which instructions are well formed: the mode legality of spec/30_encoding.md R92. An ill-formed
instruction still decodes and executes: it faults when it reaches the parameter with the illegal mode. -/

namespace Sys2Proof

/-- Mode legality (R92): a source takes position, immediate or relative; a destination takes position or relative. -/
def Mode.legalFor : Role → Mode → Bool
  | .source, .position => true
  | .source, .immediate => true
  | .source, .relative => true
  | .source, .noMode _ => false
  | .destination, .position => true
  | .destination, .immediate => false
  | .destination, .relative => true
  | .destination, .noMode _ => false

/-- Every mode legal for the role of its parameter. -/
def modesLegal : List Role → List Mode → Bool
  | r :: rs, m :: ms => m.legalFor r && modesLegal rs ms
  | [], [] => true
  | _, _ => false

/-- Every parameter's mode is legal for its role (R92). -/
def WellFormed (i : Instr) : Bool :=
  modesLegal i.roles i.modes

/-- An instruction with its parameter cells: a legal instruction and one literal per parameter (R80, R88). -/
def cellsWellFormed (i : Instr) (params : List Word) : Bool :=
  WellFormed i && params.length == i.paramCount

end Sys2Proof
end

