-- ==== Sys2Proof/Decode.lean ====
section
/-! DEFINITION. The decoder of spec/30_encoding.md R94 (decimal fields R81 to R86, opcode map R91), the encoder of
R95, both also over whole instructions cell by cell (R80, R88), and the host's numbering of an instruction's bits. -/

namespace Sys2Proof

/-- Why cells are no instruction: the opcode (R85, R91), or a text of cells that ends too early. -/
inductive DecodeError where
  | unknownOpcode (w : Word)
  | noCell
  | missingParameters (w : Word)
  deriving DecidableEq, Repr

/-- The number of an opcode (R87, first column). -/
def Opcode.number : Opcode → Nat
  | .add => 1
  | .multiply => 2
  | .input => 3
  | .output => 4
  | .jumpIfTrue => 5
  | .jumpIfFalse => 6
  | .lessThan => 7
  | .equals => 8
  | .adjustRelativeBase => 9
  | .halt => 99

/-- The opcode map (R91): ten numbers are opcodes, every other one is none. -/
def Opcode.ofNumber (n : Nat) : Option Opcode :=
  match n with
  | 1 => some .add
  | 2 => some .multiply
  | 3 => some .input
  | 4 => some .output
  | 5 => some .jumpIfTrue
  | 6 => some .jumpIfFalse
  | 7 => some .lessThan
  | 8 => some .equals
  | 9 => some .adjustRelativeBase
  | 99 => some .halt
  | _ => none

/-- `digit(n, k)`, the decimal digit of weight `10^k` (spec/00_scope.md R9). -/
def decimalDigit (n k : Nat) : Nat :=
  n / 10 ^ k % 10

/-- The mode a digit stands for (R84). -/
def Mode.ofDigit (d : Nat) : Mode :=
  match d with
  | 0 => .position
  | 1 => .immediate
  | 2 => .relative
  | n => .noMode (Fin.ofNat 7 (n - 3))

/-- The digit of a mode (R84). -/
def Mode.digit : Mode → Nat
  | .position => 0
  | .immediate => 1
  | .relative => 2
  | .noMode d => 3 + d.val

/-- The mode of parameter `k` in the word of value `n`: `digit(n, k + 1)` (R83). -/
def modeField (n k : Nat) : Mode :=
  Mode.ofDigit (decimalDigit n (k + 1))

/-- An opcode with the three mode fields; the fields the opcode does not use are ignored (R86). -/
def Opcode.withModes (op : Opcode) (m1 m2 m3 : Mode) : Instr :=
  match op with
  | .add => .add m1 m2 m3
  | .multiply => .multiply m1 m2 m3
  | .input => .input m1
  | .output => .output m1
  | .jumpIfTrue => .jumpIfTrue m1 m2
  | .jumpIfFalse => .jumpIfFalse m1 m2
  | .lessThan => .lessThan m1 m2 m3
  | .equals => .equals m1 m2 m3
  | .adjustRelativeBase => .adjustRelativeBase m1
  | .halt => .halt

/-- The decoder (R94): a negative word (R85) or an opcode outside the map (R91) is refused before any mode digit. -/
def decode (w : Word) : Except DecodeError Instr :=
  if w.toInt < 0 then .error (.unknownOpcode w)
  else
    match Opcode.ofNumber (w.toNat % 100) with
    | none => .error (.unknownOpcode w)
    | some op => .ok (op.withModes (modeField w.toNat 1) (modeField w.toNat 2) (modeField w.toNat 3))

/-- The decoder over cells (R80, R88): the instruction, its parameter cells, and the cells after it. -/
def decodeCells (cells : List Word) : Except DecodeError (Instr × List Word × List Word) :=
  match cells with
  | [] => .error .noCell
  | w :: rest =>
    match decode w with
    | .error e => .error e
    | .ok i =>
      if rest.length < i.paramCount then .error (.missingParameters w)
      else .ok (i, rest.take i.paramCount, rest.drop i.paramCount)

/-- The mode digit of parameter `k` (1, 2 or 3), 0 for a parameter the instruction does not have (R95). -/
def Instr.modeDigit (i : Instr) (k : Nat) : Nat :=
  (i.modes.getD (k - 1) .position).digit

/-- The value of the canonical instruction word (R95). -/
def Instr.wordValue (i : Instr) : Nat :=
  i.opcode.number + 100 * i.modeDigit 1 + 1000 * i.modeDigit 2 + 10000 * i.modeDigit 3

/-- The encoder: the canonical instruction word (R95). -/
def encode (i : Instr) : Word :=
  BitVec.ofNat 64 i.wordValue

/-- An instruction with its parameter literals as consecutive cells (R80, R88). -/
def encodeCells (i : Instr) (params : List Word) : List Word :=
  encode i :: params

/-- The four 64-bit cells of an instruction numbered as one number, the first cell lowest (the longest instruction has
four cells, R90). A cell has no byte order (spec/20_memory.md R60). -/
def tableCells (w : Nat) : List Word :=
  [BitVec.ofNat 64 w, BitVec.ofNat 64 (w / 2 ^ 64), BitVec.ofNat 64 (w / 2 ^ 128), BitVec.ofNat 64 (w / 2 ^ 192)]

/-- The instruction the decoder reads from the bits `w`, whose bits above `_nbits` are 0. -/
def decodeTableWord (_nbits w : Nat) : Option Instr :=
  match decodeCells (tableCells w) with
  | .ok (i, _, _) => some i
  | .error _ => none

end Sys2Proof
end

