-- ==== Sys2Proof/Config.lean ====
section
/-! DEFINITION. What an engine is built with and never changes: the program image and the parameters of
spec/00_scope.md R7, and the one free value of the model. -/

namespace Sys2Proof

/-- What an addition or multiplication outside int64 does (spec/00_scope.md R7, spec/41_alu.md R140). -/
inductive OverflowPolicy where
  | fault
  | wrap
  deriving DecidableEq, Repr

/-- The parameters of one engine (spec/00_scope.md R7, spec/10_state.md R30). `none` is `unbounded`. -/
structure Config where
  /-- `PROGRAM`, the baseline image, bound when the engine is built. -/
  program : List Word
  /-- `OVERFLOW_POLICY`. -/
  overflowPolicy : OverflowPolicy
  /-- `ADDR_LIMIT`: the first address the tape cannot hold (spec/20_memory.md R51). -/
  addrLimit : Option Nat
  /-- `TAPE_CAPACITY`: how many addresses beyond the image may be written (spec/20_memory.md R70). -/
  tapeCapacity : Option Nat
  /-- `MAX_INPUTS`: the longest input sequence of one `resume` (spec/45_host_interface.md R225). -/
  maxInputs : Option Nat
  deriving DecidableEq, Repr

/-- The defaults of spec/00_scope.md R7 with the given image. -/
def Config.standard (program : List Word) : Config where
  program := program
  overflowPolicy := .fault
  addrLimit := none
  tapeCapacity := none
  maxInputs := none

/-- FREE VALUE (log 4): the integer `IP` holds after the fault number `n`, which spec/10_state.md R36 leaves
unspecified ("an arbitrary integer (a draw)"). It has no body: no proof can know a value of it. -/
opaque Config.freeIp : Nat → Int

end Sys2Proof
end

