-- ==== Sys2Proof/Machine/State.lean ====
section
/-! DEFINITION. The state of one engine (spec/10_state.md R20, with the control state of spec/45_host_interface.md R221
and the set `W` of spec/20_memory.md R70), its value after `reset` and at power-on, and why a step can stop. -/

namespace Sys2Proof.Machine

/-- The fault kinds of spec/60_exceptions.md R261. A fault of the spec is a NEXT state (R268), never a `Fault` below. -/
inductive FaultKind where
  /-- Code 1, the guard of `resume` (R263). -/
  | notActive
  /-- Code 2, reserved: nothing raises it (R262). -/
  | alreadyActive
  /-- Code 3, decode. -/
  | unknownOpcode
  /-- Code 4, a mode digit 3 to 9 of a parameter accessed. -/
  | unknownAddressingMode
  /-- Code 5, an immediate destination. -/
  | invalidWriteMode
  /-- Code 6, input with no value left. -/
  | inputExhausted
  /-- Code 7, a tape access outside the address space. -/
  | invalidAddress
  /-- Code 8, a result outside int64 under the policy `fault`. -/
  | arithmeticOverflow
  /-- Code 9, a write beyond a finite capacity. -/
  | capacityExceeded
  deriving DecidableEq, Repr

/-- The latch `LAST` (spec/10_state.md R31). -/
inductive Last where
  | none
  | output
  | halted
  | failed
  deriving DecidableEq, Repr

/-- The responses to the host (spec/45_host_interface.md R226). -/
inductive Response where
  | done
  | output (v : Word)
  | halted
  | failed (k : FaultKind)
  deriving DecidableEq, Repr

/-- The three commands of the host (spec/45_host_interface.md R222). -/
inductive Command where
  | reset
  | resume (inputs : List Word)
  | stop
  deriving DecidableEq, Repr

/-- The control states of spec/45_host_interface.md R221. -/
inductive Control where
  | idleInactive
  | idleActive
  | running
  deriving DecidableEq, Repr

/-- The tape as data: the cells whose contents differ from the baseline, addresses strictly rising (log 2). -/
abbrev Memory := List (Nat × Word)

/-- The whole state of one engine. -/
structure State where
  /-- `PROGRAM` and the parameters (spec/00_scope.md R7): fixed when the engine is built, never written (log 3). -/
  cfg : Config
  /-- `TAPE` (spec/10_state.md R29). -/
  tape : Memory
  /-- `W`: the addresses at or beyond `len(PROGRAM)` written since the last tape reset (spec/20_memory.md R70). -/
  written : List Nat
  /-- `IP` (spec/10_state.md R22), an unbounded integer. -/
  ip : Int
  /-- `RB` (spec/10_state.md R24). -/
  rb : Word
  /-- `ACTIVE` (spec/10_state.md R25). -/
  active : Bool
  /-- A `resume` is executing: the control state `RUNNING` (spec/45_host_interface.md R221, log 7). -/
  running : Bool
  /-- `INPUTS` of the current call (spec/10_state.md R27). -/
  inputs : List Word
  /-- `IN_IDX` (spec/10_state.md R28). -/
  inIdx : Nat
  /-- `FAULT` (spec/10_state.md R31); `none` is code 0. -/
  fault : Option FaultKind
  /-- `LAST` (spec/10_state.md R31). -/
  last : Last
  /-- `OUT` (spec/10_state.md R31). -/
  out : Word
  /-- The response to the last command; `none` while a `resume` runs (spec/45_host_interface.md R221, log 6). -/
  resp : Option Response
  /-- MODEL'S OWN (log 5): the commands the host will issue, in order; a step reads it only when the block is idle. -/
  pending : List Command
  /-- MODEL'S OWN (log 4): how many free values have been drawn. -/
  draws : Nat
  deriving DecidableEq, Repr

/-- Why a step stops with a fault: nothing does (log 10). Every fault of the spec is fatal to the run but leaves a
state the spec gives (spec/60_exceptions.md R268), so the model takes it as a next state. No constructor, hence
neither safe nor unsafe: a claim can never escape into a fault. -/
inductive Fault where
  deriving DecidableEq, Repr

/-- Why a step has no meaning. -/
inductive Refusal where
  /-- Raised by exec's arm of an instruction without a meaning: none is left. Safe. -/
  | notModelled (mnemonic : String)
  /-- Raised by the host command `resume` with more inputs than `MAX_INPUTS`: spec/45_host_interface.md R225, "has no
  meaning in the model (the host must not issue it)" (log 9). Safe: the model stops. -/
  | tooManyInputs
  deriving DecidableEq, Repr

/-- What a step answers. -/
abbrev Answer := Host.Outcome State Fault Refusal

/-- The state after `reset` of an engine built with `cfg` (spec/10_state.md R35). -/
def State.resetOf (cfg : Config) : State where
  cfg := cfg
  tape := []
  written := []
  ip := 0
  rb := 0
  active := true
  running := false
  inputs := []
  inIdx := 0
  fault := none
  last := .none
  out := 0
  resp := some .done
  pending := []
  draws := 0

/-- The state at power-on (spec/10_state.md R34): `ACTIVE = 0`, the rest as after `reset`; no command was answered. -/
def State.powerOn (cfg : Config) : State :=
  { State.resetOf cfg with active := false, resp := none }

/-- The machine right after `reset`, with the default parameters and no program image (log 3). -/
def State.reset : State :=
  State.resetOf (Config.standard [])

end Sys2Proof.Machine
end

