-- ==== Sys2Proof/Machine/Ops.lean ====
section
/-! DEFINITION. The named operations over the tape and the registers (spec/20_memory.md, spec/10_state.md), the fault
entry as one shared operation (spec/60_exceptions.md R268), and the two ways a run returns (spec/45_host_interface.md
R226). -/

namespace Sys2Proof.Machine

/-! ### The tape as data -/

/-- `Base(a)`, the reset contents of the tape (R50): the image, then 0. What an unlisted address reads as. -/
def Memory.base (program : List Word) (a : Nat) : Word :=
  program.getD a 0

/-- The entry of address `a`, if it is listed. -/
def Memory.lookup : Memory → Nat → Option Word
  | [], _ => none
  | (b, v) :: m, a => if b = a then some v else Memory.lookup m a

/-- The contents of cell `a` (R52). -/
def Memory.read (program : List Word) (m : Memory) (a : Nat) : Word :=
  (Memory.lookup m a).getD (Memory.base program a)

/-- The entries without address `a`. -/
def Memory.erase : Memory → Nat → Memory
  | [], _ => []
  | (b, v) :: m, a => if b = a then Memory.erase m a else (b, v) :: Memory.erase m a

/-- The entry `(a, v)` put in its place by address, before the first higher one. -/
def Memory.insert : Memory → Nat → Word → Memory
  | [], a, v => [(a, v)]
  | (b, u) :: m, a, v => if a < b then (a, v) :: (b, u) :: m else (b, u) :: Memory.insert m a v

/-- `TAPE[a] <- v` (R53) on the canonical form: writing `Base(a)` leaves the address unlisted. -/
def Memory.write (program : List Word) (m : Memory) (a : Nat) (v : Word) : Memory :=
  if v = Memory.base program a then Memory.erase m a else Memory.insert (Memory.erase m a) a v

/-- Every entry lies at an address of at least `lo`, and the addresses rise strictly. -/
def Memory.risesFrom : Nat → Memory → Bool
  | _, [] => true
  | lo, (b, _) :: m => decide (lo ≤ b) && Memory.risesFrom (b + 1) m

/-- The canonical form: addresses strictly rising, and no entry equal to what an unlisted address reads as. -/
def Memory.wf (program : List Word) (m : Memory) : Bool :=
  Memory.risesFrom 0 m && m.all fun c => decide (c.2 ≠ Memory.base program c.1)

/-- A set of addresses as a strictly rising list, with one more address. -/
def insertAddress : List Nat → Nat → List Nat
  | [], a => [a]
  | b :: l, a => if a < b then a :: b :: l else if a = b then b :: l else b :: insertAddress l a

/-- The addresses are at least `lo` and rise strictly. -/
def addressesRiseFrom : Nat → List Nat → Bool
  | _, [] => true
  | lo, b :: l => decide (lo ≤ b) && addressesRiseFrom (b + 1) l

/-! ### Register writes -/

/-- `IP <- v`. -/
def State.setIp (s : State) (v : Int) : State :=
  { s with ip := v }

/-- `RB <- v`. -/
def State.setRb (s : State) (v : Word) : State :=
  { s with rb := v }

/-- `IN_IDX <- n`. -/
def State.setInIdx (s : State) (n : Nat) : State :=
  { s with inIdx := n }

/-! ### Tape access -/

/-- `TAPE[a]` of the state. -/
def State.cell (s : State) (a : Nat) : Word :=
  Memory.read s.cfg.program s.tape a

/-- `CheckAddr(a)` (R55): the address as a natural number, or InvalidAddress. -/
def checkAddr (cfg : Config) (a : Int) : Except FaultKind Nat :=
  if a < 0 then .error .invalidAddress
  else
    match cfg.addrLimit with
    | none => .ok a.toNat
    | some limit => if (limit : Int) ≤ a then .error .invalidAddress else .ok a.toNat

/-- The condition under which `CheckCapacity(a)` raises CapacityExceeded (R70). -/
def State.capacityExceededAt (s : State) (a : Nat) : Bool :=
  match s.cfg.tapeCapacity with
  | none => false
  | some c => decide (s.cfg.program.length ≤ a) && !s.written.contains a && decide (s.written.length = c)

/-- `W` after a write to `a` (R70, last line): grown only at or beyond the image. -/
def State.writtenWith (s : State) (a : Nat) : List Nat :=
  if s.cfg.program.length ≤ a then insertAddress s.written a else s.written

/-- The effect of a write that passed its checks: `W <- W ∪ {a}`, `TAPE[a] <- v` (R53, R70). -/
def State.store (s : State) (a : Nat) (v : Word) : State :=
  { s with tape := Memory.write s.cfg.program s.tape a v, written := s.writtenWith a }

/-- `MemRead(a, 1)` (R52). A read changes no state. -/
def memRead (s : State) (a : Int) : Except FaultKind Word :=
  match checkAddr s.cfg a with
  | .error k => .error k
  | .ok n => .ok (s.cell n)

/-- `MemWrite(a, 1, v)` (R53): the address check, then the capacity check, then the write. -/
def memWrite (s : State) (a : Int) (v : Word) : Except FaultKind State :=
  match checkAddr s.cfg a with
  | .error k => .error k
  | .ok n => if s.capacityExceededAt n then .error .capacityExceeded else .ok (s.store n v)

/-! ### The ends of a run

Taking a fault is one operation; the spec has no return from one ("There is no return-from-trap instruction",
spec/60_exceptions.md R269): only the `reset` command revives the engine. -/

/-- `raise K` (spec/60_exceptions.md R268, R270): `ACTIVE`, `LAST`, `FAULT` and the response as the rule says, `IP` a
free value (log 4), `OUT`, `RB` and the tape kept. The call ends, so its inputs are discarded (log 8). -/
def State.raise (s : State) (k : FaultKind) : State :=
  { s with
    active := false, running := false, inputs := [], fault := some k, last := .failed, resp := some (.failed k),
    ip := Config.freeIp s.draws, draws := s.draws + 1 }

/-- `return Output(v)` (spec/42_io.md R161, spec/45_host_interface.md R226): the run suspends, `ACTIVE` stays. -/
def State.returnOutput (s : State) (v : Word) : State :=
  { s with
    running := false, inputs := [], fault := none, last := .output, out := v, resp := some (.output v) }

/-- `ACTIVE <- 0; return Halted` (spec/44_machine_control.md R201, spec/45_host_interface.md R226). -/
def State.returnHalted (s : State) : State :=
  { s with
    active := false, running := false, inputs := [], fault := none, last := .halted, out := 0,
    resp := some .halted }

/-- An instruction's last effect: the state it leaves, or the fault it raises instead. -/
def finish (s : State) (r : Except FaultKind State) : Answer :=
  match r with
  | .ok t => .next t
  | .error k => .next (s.raise k)

/-! ### Laying cells where the next instruction is fetched (for the host's `withFetchWord`) -/

/-- Cells stored one after another from address `a` up, each as a tape write leaves it; a negative address has no
cell, so nothing is stored there. -/
def State.layCells (s : State) (a : Int) : List Word → State
  | [] => s
  | w :: ws => State.layCells (if a < 0 then s else s.store a.toNat w) (a + 1) ws

end Sys2Proof.Machine
end

