-- ==== Sys2Proof/Machine/Commands.lean ====
section
/-! DEFINITION. The host's commands (spec/45_host_interface.md R222 to R226) and the idle block. -/

namespace Sys2Proof.Machine

/-- `reset` (R223): every piece of state at its value of spec/10_state.md R35, whatever it was before; the response is
`Done`. The engine's parameters, the host's further commands and the count of free values are not part of it. -/
def State.doReset (s : State) : State :=
  { State.resetOf s.cfg with pending := s.pending, draws := s.draws }

/-- `stop` (R224): `ACTIVE <- 0` and nothing else; the response is `Done`. -/
def State.doStop (s : State) : State :=
  { s with active := false, resp := some .done }

/-- The response of a guard failure (spec/60_exceptions.md R263): `Failed(NotActive)`, state and latches untouched. -/
def State.failNotActive (s : State) : State :=
  { s with resp := some (.failed .notActive) }

/-- The start of a run (R225): the call's inputs, `IN_IDX` at 0, no response yet. -/
def State.startRun (s : State) (inputs : List Word) : State :=
  { s with inputs := inputs, inIdx := 0, running := true, resp := none }

/-- Whether `MAX_INPUTS` forbids a sequence (R225). -/
def tooManyInputs (cfg : Config) (inputs : List Word) : Bool :=
  match cfg.maxInputs with
  | none => false
  | some n => decide (n < inputs.length)

/-- `resume(inputs)` up to its first instruction (R225). -/
def resume (inputs : List Word) (s : State) : Answer :=
  if s.active then
    if tooManyInputs s.cfg inputs then .refused .tooManyInputs else .next (s.startRun inputs)
  else .next s.failNotActive

/-- One command. -/
def runCommand (c : Command) (s : State) : Answer :=
  match c with
  | .reset => .next s.doReset
  | .resume inputs => resume inputs s
  | .stop => .next s.doStop

/-- The step of an idle block: the host's next command, if it has one; otherwise the block "executes nothing and keeps
all state" (spec/60_exceptions.md R277). -/
def idleStep (s : State) : Answer :=
  match s.pending with
  | [] => .next s
  | c :: rest => runCommand c { s with pending := rest }

end Sys2Proof.Machine
end

