-- ==== Sys2Proof/Machine/Flags.lean ====
section
/-! DEFINITION. Every condition the spec computes: the int64 range and `Result64` (spec/41_alu.md R140), the 0-or-1
results (R143, R144) and jump conditions (spec/43_control.md R180, R181), which take the place of condition codes
(spec/10_state.md R26); and the views of the one flag and the latches: fault codes (spec/60_exceptions.md R261), the
control state (spec/45_host_interface.md R221) and the status word (R232). -/

namespace Sys2Proof.Machine

/-- `in_int64(x)` (spec/00_scope.md R8). -/
def inInt64 (x : Int) : Bool :=
  decide (-(2 ^ 63) ≤ x) && decide (x ≤ 2 ^ 63 - 1)

/-- `Result64(x)` (R140). -/
def result64 (cfg : Config) (x : Int) : Except FaultKind Word :=
  if inInt64 x then .ok (BitVec.ofInt 64 x)
  else
    match cfg.overflowPolicy with
    | .fault => .error .arithmeticOverflow
    | .wrap => .ok (BitVec.ofInt 64 ((x + 2 ^ 63) % 2 ^ 64 - 2 ^ 63))

/-- A condition as the cell value 1 or 0 (R143, R144). -/
def flagWord (b : Bool) : Word :=
  if b then 1 else 0

/-- `a < b`, signed (R143). -/
def isLess (a b : Word) : Bool :=
  decide (a.toInt < b.toInt)

/-- `a == b` (R144). -/
def isEqual (a b : Word) : Bool :=
  decide (a.toInt = b.toInt)

/-- `cond != 0` (R180). -/
def isNonzero (a : Word) : Bool :=
  decide (a.toInt ≠ 0)

/-- The code of a fault kind (R261). -/
def FaultKind.code : FaultKind → Nat
  | .notActive => 1
  | .alreadyActive => 2
  | .unknownOpcode => 3
  | .unknownAddressingMode => 4
  | .invalidWriteMode => 5
  | .inputExhausted => 6
  | .invalidAddress => 7
  | .arithmeticOverflow => 8
  | .capacityExceeded => 9

/-- The number of `LAST` in the status word (R232). -/
def Last.code : Last → Nat
  | .none => 0
  | .output => 1
  | .halted => 2
  | .failed => 3

/-- The code in the latch `FAULT`, 0 for none (R261). -/
def State.faultCode (s : State) : Nat :=
  match s.fault with
  | none => 0
  | some k => k.code

/-- The control state (R221). -/
def State.control (s : State) : Control :=
  if s.running then .running else if s.active then .idleActive else .idleInactive

/-- `STATUS` (R232): `ACTIVE` in bit 0, `LAST` in bits 2:1, `FAULT` in bits 15:8, every other bit 0. -/
def State.statusWord (s : State) : Word :=
  BitVec.ofNat 48 0 ++ BitVec.ofNat 8 s.faultCode ++ BitVec.ofNat 5 0 ++ BitVec.ofNat 2 s.last.code
    ++ BitVec.ofBool s.active

end Sys2Proof.Machine
end

