-- ==== Sys2Proof/Machine/Operands.lean ====
section
/-! DEFINITION. Parameter slots and the three-mode address decoder (spec/40_execute_cycle.md R114 to R119, R124). -/

namespace Sys2Proof.Machine

/-- What the address decoder makes of a source parameter (R124): its value itself, or the address to read. -/
inductive SourceOperand where
  | value (v : Word)
  | cell (a : Int)
  deriving DecidableEq, Repr

/-- The address decoder for a source with literal `p` (R124): position `p` (R116), immediate (R118), relative `RB + p`
exactly (R117). -/
def decodeSource (m : Mode) (rb p : Word) : Except FaultKind SourceOperand :=
  match m with
  | .position => .ok (.cell p.toInt)
  | .immediate => .ok (.value p)
  | .relative => .ok (.cell (rb.toInt + p.toInt))
  | .noMode _ => .error .unknownAddressingMode

/-- The address decoder for a destination with literal `p` (R119, R124). -/
def decodeDestination (m : Mode) (rb p : Word) : Except FaultKind Int :=
  match m with
  | .position => .ok p.toInt
  | .immediate => .error .invalidWriteMode
  | .relative => .ok (rb.toInt + p.toInt)
  | .noMode _ => .error .unknownAddressingMode

/-- `slot()` (R114): the literal at `IP`, and `IP` past it. -/
def slot (s : State) : Except FaultKind (Word × State) :=
  match memRead s s.ip with
  | .error k => .error k
  | .ok p => .ok (p, s.setIp (s.ip + 1))

/-- `ReadParam` (R115): slot read, mode check, operand read. -/
def readParam (m : Mode) (s : State) : Except FaultKind (Word × State) :=
  match slot s with
  | .error k => .error k
  | .ok (p, s') =>
    match decodeSource m s'.rb p with
    | .error k => .error k
    | .ok (.value v) => .ok (v, s')
    | .ok (.cell a) =>
      match memRead s' a with
      | .error k => .error k
      | .ok v => .ok (v, s')

/-- `WriteParam` (R119): slot read, mode check, then the write with its checks. -/
def writeParam (m : Mode) (v : Word) (s : State) : Except FaultKind State :=
  match slot s with
  | .error k => .error k
  | .ok (p, s') =>
    match decodeDestination m s'.rb p with
    | .error k => .error k
    | .ok a => memWrite s' a v

/-- The rest of an instruction after its next source parameter, or that parameter's fault (R120 step 3). -/
def withSource (m : Mode) (s : State) (rest : Word → State → Answer) : Answer :=
  match readParam m s with
  | .error k => .next (s.raise k)
  | .ok (v, s') => rest v s'

/-- The rest of an instruction after its computation, or the computation's fault (R120 step 4). -/
def withResult (s : State) (r : Except FaultKind Word) (rest : Word → Answer) : Answer :=
  match r with
  | .error k => .next (s.raise k)
  | .ok v => rest v

/-- The destination step of an instruction (R120 step 5). -/
def writeResult (m : Mode) (v : Word) (s : State) : Answer :=
  finish s (writeParam m v s)

end Sys2Proof.Machine
end

