-- ==== Sys2Proof/Machine/Alu.lean ====
section
/-! DEFINITION. add, multiply, less-than, equals (spec/41_alu.md R141 to R144). -/

namespace Sys2Proof.Machine

/-- The shape of every ALU instruction (format F3): sources `a` and `b`, the result, the destination, in the order of
spec/40_execute_cycle.md R120. -/
def aluOp (f : Word → Word → Except FaultKind Word) (m1 m2 m3 : Mode) (s : State) : Answer :=
  withSource m1 s fun a s1 =>
    withSource m2 s1 fun b s2 =>
      withResult s2 (f a b) fun r => writeResult m3 r s2

/-- add (R141): `dst := Result64(a + b)`. -/
def execAdd (m1 m2 m3 : Mode) (s : State) : Answer :=
  aluOp (fun a b => result64 s.cfg (a.toInt + b.toInt)) m1 m2 m3 s

/-- multiply (R142): `dst := Result64(a * b)`. -/
def execMultiply (m1 m2 m3 : Mode) (s : State) : Answer :=
  aluOp (fun a b => result64 s.cfg (a.toInt * b.toInt)) m1 m2 m3 s

/-- less-than (R143): `dst := 1 if a < b else 0`. -/
def execLessThan (m1 m2 m3 : Mode) (s : State) : Answer :=
  aluOp (fun a b => .ok (flagWord (isLess a b))) m1 m2 m3 s

/-- equals (R144): `dst := 1 if a == b else 0`. -/
def execEquals (m1 m2 m3 : Mode) (s : State) : Answer :=
  aluOp (fun a b => .ok (flagWord (isEqual a b))) m1 m2 m3 s

end Sys2Proof.Machine
end

