-- ==== Sys2Proof/Machine/Control.lean ====
section
/-! DEFINITION. jump-if-true and jump-if-false (spec/43_control.md R180, R181). -/

namespace Sys2Proof.Machine

/-- The shape of both jumps (format F2): `cond` and `target` are both read, then `IP` takes the target if `taken`. -/
def jumpWhen (taken : Word → Bool) (m1 m2 : Mode) (s : State) : Answer :=
  withSource m1 s fun cond s1 =>
    withSource m2 s1 fun target s2 => .next (if taken cond then s2.setIp target.toInt else s2)

/-- jump-if-true (R180): taken when `cond != 0`. -/
def execJumpIfTrue (m1 m2 : Mode) (s : State) : Answer :=
  jumpWhen isNonzero m1 m2 s

/-- jump-if-false (R181): taken when `cond == 0`. -/
def execJumpIfFalse (m1 m2 : Mode) (s : State) : Answer :=
  jumpWhen (fun cond => !isNonzero cond) m1 m2 s

end Sys2Proof.Machine
end

