-- ==== Sys2Proof/Machine/InOut.lean ====
section
/-! DEFINITION. input and output (spec/42_io.md R160, R161). -/

namespace Sys2Proof.Machine

/-- input (R160): the value is taken, and `IN_IDX` advanced, before the destination is decoded. -/
def execInput (m1 : Mode) (s : State) : Answer :=
  match s.inputs[s.inIdx]? with
  | none => .next (s.raise .inputExhausted)
  | some v => writeResult m1 v (s.setInIdx (s.inIdx + 1))

/-- output (R161): the run suspends with `Output(a)`, `IP` past the instruction. -/
def execOutput (m1 : Mode) (s : State) : Answer :=
  withSource m1 s fun a s1 => .next (s1.returnOutput a)

end Sys2Proof.Machine
end

