-- ==== Sys2Proof/Machine/MachineControl.lean ====
section
/-! DEFINITION. adjust-relative-base and halt (spec/44_machine_control.md R200, R201). -/

namespace Sys2Proof.Machine

/-- adjust-relative-base (R200): `RB <- Result64(RB + a)`, where a relative operand was read with the old `RB`. -/
def execAdjustRelativeBase (m1 : Mode) (s : State) : Answer :=
  withSource m1 s fun a s1 =>
    withResult s1 (result64 s1.cfg (s1.rb.toInt + a.toInt)) fun r => .next (s1.setRb r)

/-- halt (R201): `ACTIVE <- 0`, the run ends with `Halted`. -/
def execHalt (s : State) : Answer :=
  .next s.returnHalted

end Sys2Proof.Machine
end

