-- ==== Sys2Proof/Machine/Fetch.lean ====
section
/-! DEFINITION. The fetch and the decode of one instruction (spec/40_execute_cycle.md R110, R111). -/

namespace Sys2Proof.Machine

/-- The fetch (R110), then the decode (R111): the instruction, and the state with `IP` past its word; or
InvalidAddress, or UnknownOpcode (spec/44_machine_control.md R202) before any parameter slot is read. -/
def fetchDecode (s : State) : Except FaultKind (Instr × State) :=
  match memRead s s.ip with
  | .error k => .error k
  | .ok w =>
    match decode w with
    | .error _ => .error .unknownOpcode
    | .ok i => .ok (i, s.setIp (s.ip + 1))

end Sys2Proof.Machine
end

