-- ==== Sys2Proof/Machine/Step.lean ====
section
/-! DEFINITION. One step of the machine: in a run, one whole instruction (spec/40_execute_cycle.md R123); in an idle
block, one command of the host. -/

namespace Sys2Proof.Machine

/-- One step. A fault of fetch or decode is taken as any other fault is (spec/60_exceptions.md R268). -/
def step (s : State) : Host.Outcome State Fault Refusal :=
  if s.running then
    match fetchDecode s with
    | .error k => .next (s.raise k)
    | .ok (i, s') => exec i s'
  else idleStep s

/-- The state with the instruction of bits `w` stored where the next fetch reads it, and a run in progress, so that
the very next step executes it (log 12). `nbits` needs no use: the bits above it are 0. -/
def State.withFetchWord (s : State) (_nbits w : Nat) : State :=
  State.layCells { s with running := true, active := true } s.ip (tableCells w)

end Sys2Proof.Machine
end

