-- ==== Sys2Proof/Machine/Loader.lean ====
section
/-! DEFINITION. The loader of spec/30_encoding.md R96, outside the core: a text line of comma-separated base-10 integers
becomes the baseline image, or is refused. The core never calls it. -/

namespace Sys2Proof.Machine

/-- The parts of a text between commas: always at least one. -/
def splitCommas : List Char → List (List Char)
  | [] => [[]]
  | c :: cs =>
    if c = ',' then [] :: splitCommas cs
    else
      match splitCommas cs with
      | [] => [[c]]
      | part :: parts => (c :: part) :: parts

/-- The value of decimal digits read after `acc`; `none` at a character that is no digit. -/
def digitsValue : List Char → Nat → Option Nat
  | [], acc => some acc
  | c :: cs, acc => if c.isDigit then digitsValue cs (10 * acc + (c.toNat - '0'.toNat)) else none

/-- At least one decimal digit, and nothing else. -/
def parseDigits : List Char → Option Nat
  | [] => none
  | c :: cs => digitsValue (c :: cs) 0

/-- An optional sign followed by decimal digits (R96). -/
def parseInteger (cs : List Char) : Option Int :=
  match cs with
  | '-' :: ds => (parseDigits ds).map fun (n : Nat) => -(n : Int)
  | '+' :: ds => (parseDigits ds).map fun (n : Nat) => (n : Int)
  | ds => (parseDigits ds).map fun (n : Nat) => (n : Int)

/-- One element: an integer in the int64 range (R96). -/
def parseElement (cs : List Char) : Option Word :=
  match parseInteger cs with
  | none => none
  | some x => if inInt64 x then some (BitVec.ofInt 64 x) else none

/-- Every element, or nothing: one bad element refuses the line (R96). -/
def parseElements : List (List Char) → Option (List Word)
  | [] => some []
  | e :: es =>
    match parseElement e, parseElements es with
    | some w, some ws => some (w :: ws)
    | _, _ => none

/-- A text without the whitespace around it (R96; which characters those are: log 15). -/
def trimSpace (cs : List Char) : List Char :=
  ((cs.dropWhile Char.isWhitespace).reverse.dropWhile Char.isWhitespace).reverse

/-- The image of a program line (R96): trimmed, then split, then parsed. -/
def loadImage (line : List Char) : Option (List Word) :=
  parseElements (splitCommas (trimSpace line))

/-- Construction from a text (R96, spec/45_host_interface.md R231): the engine at power-on with the default
parameters, or no engine. -/
def buildFromText (line : List Char) : Option State :=
  (loadImage line).map fun image => State.powerOn (Config.standard image)

end Sys2Proof.Machine
end

