-- ==== Sys2Proof/Machine/Port.lean ====
section
/-! DEFINITION. The observation port (spec/45_host_interface.md R232, R233): what the host may read of an idle block.
A read has no side effect, so it is a function of the state and no step (log 14). -/

namespace Sys2Proof.Machine

/-- Why the port has no value: a run is in progress (R233, spec/70_reset_and_hazards.md R308), there is no such
register (R232), the address is negative (R233), or it is at or beyond `ADDR_LIMIT` (R233). -/
inductive PortRefusal where
  | busy
  | noRegister
  | negativeAddress
  | beyondLimit
  deriving DecidableEq, Repr

/-- A register by its index (R232), as the integer it holds. -/
def readRegister (s : State) (index : Nat) : Except PortRefusal Int :=
  if s.running then .error .busy
  else
    match index with
    | 0 => .ok s.ip
    | 1 => .ok s.rb.toInt
    | 2 => .ok s.statusWord.toNat
    | 3 => .ok s.out.toInt
    | 4 => .ok s.inIdx
    | _ => .error .noRegister

/-- A tape cell (R233). -/
def observeCell (s : State) (a : Int) : Except PortRefusal Word :=
  if s.running then .error .busy
  else if a < 0 then .error .negativeAddress
  else
    match s.cfg.addrLimit with
    | none => .ok (s.cell a.toNat)
    | some limit => if (limit : Int) ≤ a then .error .beyondLimit else .ok (s.cell a.toNat)

end Sys2Proof.Machine
end

