-- ==== Sys2Proof/Safety.lean ====
section
/-! DEFINITION. The terms statements are made in: when an operand has a value, where a destination lies and which fault
a parameter raises, read off the table of spec/40_execute_cycle.md R124 and the order of R120, for an instruction whose
first parameter slot is at `IP`; the value of an element of an image text; and the invariants of the machine. -/

namespace Sys2Proof.Machine

/-- An address of the tape (spec/20_memory.md R51, R55): not negative, and below a finite `ADDR_LIMIT`. -/
def State.ValidAddress (s : State) (a : Int) : Prop :=
  0 ≤ a ∧ ∀ limit, s.cfg.addrLimit = some limit → a < (limit : Int)

/-- The literal of parameter `k`, counted from 0 (spec/40_execute_cycle.md R114). -/
def State.literal (s : State) (k : Nat) : Word :=
  s.cell (s.ip + k).toNat

/-- The address parameter `k` names in mode `m`: position or relative (R116, R117); the other modes name none. -/
def State.effectiveAddress (s : State) (k : Nat) : Mode → Option Int
  | .position => some (s.literal k).toInt
  | .relative => some (s.rb.toInt + (s.literal k).toInt)
  | .immediate => none
  | .noMode _ => none

/-- Source parameter `k` in mode `m` has the value `v` (R115, R124). -/
def State.SourceGives (s : State) (k : Nat) (m : Mode) (v : Word) : Prop :=
  s.ValidAddress (s.ip + k) ∧
    ((m = .immediate ∧ v = s.literal k) ∨
      ∃ a, s.effectiveAddress k m = some a ∧ s.ValidAddress a ∧ v = s.cell a.toNat)

/-- Source parameter `k` in mode `m` raises `f` (R115, R265): its slot, then its mode, then its operand address. -/
def State.SourceFaults (s : State) (k : Nat) (m : Mode) (f : FaultKind) : Prop :=
  (¬ s.ValidAddress (s.ip + k) ∧ f = .invalidAddress) ∨
    (s.ValidAddress (s.ip + k) ∧
      (((∃ d, m = .noMode d) ∧ f = .unknownAddressingMode) ∨
        ∃ a, s.effectiveAddress k m = some a ∧ ¬ s.ValidAddress a ∧ f = .invalidAddress))

/-- Destination parameter `k` in mode `m` names cell `a`, and the write passes both its checks (R119, R53). -/
def State.DestinationIs (s : State) (k : Nat) (m : Mode) (a : Nat) : Prop :=
  s.ValidAddress (s.ip + k) ∧ s.effectiveAddress k m = some (a : Int) ∧ s.ValidAddress a ∧
    s.capacityExceededAt a = false

/-- Destination parameter `k` in mode `m` raises `f` (R119, R265): its slot, then its mode, then its address, then the
capacity. -/
def State.DestinationFaults (s : State) (k : Nat) (m : Mode) (f : FaultKind) : Prop :=
  (¬ s.ValidAddress (s.ip + k) ∧ f = .invalidAddress) ∨
    (s.ValidAddress (s.ip + k) ∧
      ((m = .immediate ∧ f = .invalidWriteMode) ∨
        ((∃ d, m = .noMode d) ∧ f = .unknownAddressingMode) ∨
        ∃ a, s.effectiveAddress k m = some a ∧
          ((¬ s.ValidAddress a ∧ f = .invalidAddress) ∨
            (s.ValidAddress a ∧ s.capacityExceededAt a.toNat = true ∧ f = .capacityExceeded))))

/-- A decimal digit of an image text (spec/30_encoding.md R96, log 15): `0` to `9`. -/
def isDecimalDigit (c : Char) : Prop :=
  '0'.toNat ≤ c.toNat ∧ c.toNat ≤ '9'.toNat

/-- The value of decimal digits, the last one of weight 1. -/
def decimalValue (digits : List Char) : Nat :=
  digits.foldl (fun n c => 10 * n + (c.toNat - '0'.toNat)) 0

/-- The value of an element of an image text (spec/30_encoding.md R96): negative under the sign `-`. -/
def signedValue (sign digits : List Char) : Int :=
  if sign = ['-'] then -(decimalValue digits : Int) else decimalValue digits

/-- The instruction a running engine executes next: the one at `IP` (spec/40_execute_cycle.md R110, R111). -/
def State.NextInstr (s : State) (i : Instr) : Prop :=
  s.running = true ∧ s.ValidAddress s.ip ∧ decode (s.cell s.ip.toNat) = .ok i

/-- The tape is data of the canonical form, `W` is a set of addresses beyond the image that holds every listed address
there, and the parameters `ADDR_LIMIT` and `TAPE_CAPACITY` bound both (spec/20_memory.md R51, R70). The canonical form is
the model's own (log 2). -/
structure State.TapeInv (s : State) : Prop where
  canonical : Memory.wf s.cfg.program s.tape = true
  writtenRises : addressesRiseFrom s.cfg.program.length s.written = true
  grownIsWritten : ∀ c ∈ s.tape, s.cfg.program.length ≤ c.1 → c.1 ∈ s.written
  tapeBelowLimit : ∀ limit, s.cfg.addrLimit = some limit → ∀ c ∈ s.tape, c.1 < limit
  writtenBelowLimit : ∀ limit, s.cfg.addrLimit = some limit → ∀ a ∈ s.written, a < limit
  withinCapacity : ∀ n, s.cfg.tapeCapacity = some n → s.written.length ≤ n

/-- A call's own state (spec/45_host_interface.md R221, R225, spec/10_state.md R27, R28): a run is active and has not
responded (log 6); inputs exist only in a run (log 8), at most `MAX_INPUTS` of them, and the index never passes their
end. -/
structure State.CallInv (s : State) : Prop where
  runIsActive : s.running = true → s.active = true
  runHasNoResponse : s.running = true → s.resp = none
  inputsOnlyInRun : s.running = false → s.inputs = []
  indexInRange : s.running = true → s.inIdx ≤ s.inputs.length
  inputsAllowed : ∀ n, s.cfg.maxInputs = some n → s.inputs.length ≤ n

/-- The result latches (spec/10_state.md R31, spec/45_host_interface.md R226): `FAULT` holds a code exactly when
`LAST = FAILED`, and never a guard failure's code (spec/60_exceptions.md R262, R263); an ended engine is inactive
(R269); `OUT` is 0 except after outputs; and a response still standing agrees with the latches. -/
structure State.LatchInv (s : State) : Prop where
  failedHasCode : s.last = .failed ↔ s.fault.isSome = true
  noGuardCode : s.fault ≠ some .notActive ∧ s.fault ≠ some .alreadyActive
  endedIsInactive : s.last = .halted ∨ s.last = .failed → s.active = false
  outIsZero : s.last = .none ∨ s.last = .halted → s.out = 0
  outputAgrees : ∀ v, s.resp = some (.output v) → s.last = .output ∧ s.out = v ∧ s.active = true
  haltAgrees : s.resp = some .halted → s.last = .halted
  faultAgrees : ∀ k, s.resp = some (.failed k) → k ≠ .notActive → s.fault = some k

end Sys2Proof.Machine
end

