-- ==== Sys2Proof/Certificates/Slice0/Obligations.lean ====
section
/-! DEFINITION. The statements for the provers. Each docstring names the rule or section of spec/ it formalises, and the
spec's own decision (D of spec/92_eei_decisions.md) or the log entry a clause rests on. Unless a statement is about
`step`, the instruction it is about starts at `s`, whose `IP` is at the first parameter slot (log 11). -/

open Sys2Proof Sys2Proof.Machine

/-! ### Encoding -/

/-- spec/30_encoding.md sections 1 to 3: what the encoder writes for any instruction, legal modes or not, the decoder
reads back, with every mode field. -/
def Obligations.DecodeEncodeRoundTrip : Prop :=
  ∀ i : Instr, decode (encode i) = .ok i

/-- spec/30_encoding.md sections 1 and 2: an instruction and its parameter cells are read back whole, whatever cells
follow. -/
def Obligations.CellsRoundTrip : Prop :=
  ∀ (i : Instr) (params rest : List Word), params.length = i.paramCount →
    decodeCells (encodeCells i params ++ rest) = .ok (i, params, rest)

/-- spec/30_encoding.md section 3, the encoder (the spec's inference), with its example 1102. -/
def Obligations.CanonicalWordFormula : Prop :=
  (∀ i : Instr, (∀ m ∈ i.modes, m.digit ≤ 2) →
    (encode i).toInt = i.opcode.number + 100 * (i.modes.getD 0 .position).digit
      + 1000 * (i.modes.getD 1 .position).digit + 10000 * (i.modes.getD 2 .position).digit) ∧
  encode (.multiply .immediate .immediate .position) = 1102

/-- R82, with its example 1102: the opcode decoded is the one numbered `w mod 100`, and where no opcode has that number
the word is refused. -/
def Obligations.OpcodeIsWordModHundred : Prop :=
  (∀ w : Word, 0 ≤ w.toInt →
    (∃ i, decode w = .ok i ∧ (i.opcode.number : Int) = w.toInt % 100) ∨
      (decode w = .error (.unknownOpcode w) ∧ ∀ op : Opcode, (op.number : Int) ≠ w.toInt % 100)) ∧
  ∃ m1 m2 m3, decode 1102 = .ok (.multiply m1 m2 m3)

/-- R83, with its example 1102: the digit of each mode field, and that the parameters of the decoded instruction take
them; the `k` of the rule is `k + 1` in the second clause. -/
def Obligations.ModeDigitsOfWord : Prop :=
  (∀ (w : Word), ∀ k ∈ [1, 2, 3], 0 ≤ w.toInt →
    ((modeField w.toNat k).digit : Int) = w.toInt / 10 ^ (k + 1) % 10) ∧
  (∀ (w : Word) (i : Instr) (k : Nat) (m : Mode), 0 ≤ w.toInt → decode w = .ok i → i.modes[k]? = some m →
    (m.digit : Int) = w.toInt / 10 ^ (k + 2) % 10) ∧
  decode 1102 = .ok (.multiply .immediate .immediate .position)

/-- spec/30_encoding.md section 1, negative instruction words (the spec's decision D5). -/
def Obligations.NegativeWordRaisesUnknownOpcode : Prop :=
  ∀ s : State, s.running = true → s.ValidAddress s.ip → (s.cell s.ip.toNat).toInt < 0 →
    step s = .next (s.raise .unknownOpcode)

/-- spec/30_encoding.md section 1, unused digits (the spec's decision D6): two words of one opcode that agree on the
mode digits of its parameters are one instruction; with the section's examples. -/
def Obligations.UnusedDigitsAreIgnored : Prop :=
  (∀ (v w : Word) (op : Opcode), 0 ≤ v.toInt → 0 ≤ w.toInt → Opcode.ofNumber (v.toNat % 100) = some op →
    v.toNat % 100 = w.toNat % 100 →
    (∀ k < op.format.roles.length, v.toNat / 10 ^ (k + 2) % 10 = w.toNat / 10 ^ (k + 2) % 10) →
    decode v = decode w) ∧
  decode 99 = .ok .halt ∧ decode 199 = .ok .halt ∧ decode 10099 = .ok .halt ∧
  decode 5000 = .error (.unknownOpcode 5000)

/-- R91. -/
def Obligations.OpcodeMapIsClosed : Prop :=
  (∀ w : Word, 0 ≤ w.toInt →
    ((∃ i, decode w = .ok i) ↔ w.toInt % 100 ∈ [1, 2, 3, 4, 5, 6, 7, 8, 9, 99])) ∧
  (∀ s : State, s.running = true → s.ValidAddress s.ip → 0 ≤ (s.cell s.ip.toNat).toInt →
    (s.cell s.ip.toNat).toInt % 100 ∉ [1, 2, 3, 4, 5, 6, 7, 8, 9, 99] →
    step s = .next (s.raise .unknownOpcode) ∧ (s.raise .unknownOpcode).active = false)

/-- spec/95_test_vectors.md section 2: the words of the source's programs and of the corner cases. -/
def Obligations.DecodesSpecWords : Prop :=
  decode 109 = .ok (.adjustRelativeBase .immediate) ∧ decode 204 = .ok (.output .relative) ∧
  decode 1001 = .ok (.add .position .immediate .position) ∧
  decode 1008 = .ok (.equals .position .immediate .position) ∧
  decode 1006 = .ok (.jumpIfFalse .position .immediate) ∧
  decode 1102 = .ok (.multiply .immediate .immediate .position) ∧ decode 104 = .ok (.output .immediate) ∧
  decode 100001 = .ok (.add .position .position .position) ∧ decode 9004 = .ok (.output .position) ∧
  decode 11101 = .ok (.add .immediate .immediate .immediate) ∧
  decode 30001 = .ok (.add .position .position (.noMode 0)) ∧ decode 98 = .error (.unknownOpcode 98)

/-! ### Fetch, slots and the address decoder -/

/-- spec/40_execute_cycle.md section 1 (the spec's decisions D4, D5): a step of a run fetches at `IP`, moves `IP` past the word, decodes and
executes; a bad address or an illegal opcode is the fault instead. -/
def Obligations.StepRunsFetchedInstr : Prop :=
  ∀ s : State, s.running = true →
    (¬ s.ValidAddress s.ip → step s = .next (s.raise .invalidAddress)) ∧
    (s.ValidAddress s.ip →
      (∀ e, decode (s.cell s.ip.toNat) = .error e → step s = .next (s.raise .unknownOpcode)) ∧
      (∀ i, decode (s.cell s.ip.toNat) = .ok i → step s = exec i (s.setIp (s.ip + 1))))

/-- R114: the slot read is `MemRead(IP, 1)` and then `IP <- IP + 1`; parameter `k` of the rule is slot `k - 1` here;
reading a parameter moves `IP` past its slot, and writing does the same. -/
def Obligations.SlotReadAdvancesIp : Prop :=
  ∀ s : State,
    slot s = (memRead s s.ip).map (fun p => (p, s.setIp (s.ip + 1))) ∧
    (∀ k : Nat, s.ValidAddress (s.ip + k) →
      slot (s.setIp (s.ip + k)) = .ok (s.cell (s.ip + k).toNat, s.setIp (s.ip + k + 1))) ∧
    (∀ m v t, readParam m s = .ok (v, t) → t = s.setIp (s.ip + 1)) ∧
    (∀ m v t, writeParam m v s = .ok t → t.ip = s.ip + 1)

/-- spec/40_execute_cycle.md section 2 (the spec's decisions D3, D4): the three modes as source and as destination, with the
slot's literal `p`, the digits that are no mode, and the slot's own fault. -/
def Obligations.ThreeModeAddressDecoder : Prop :=
  ∀ s : State,
    (∀ k, slot s = .error k → (∀ m, readParam m s = .error k) ∧ ∀ m v, writeParam m v s = .error k) ∧
    (∀ (s' : State) (p : Word), slot s = .ok (p, s') →
      readParam .position s = (memRead s' p.toInt).map (fun v => (v, s')) ∧
      readParam .immediate s = .ok (p, s') ∧
      readParam .relative s = (memRead s' (s.rb.toInt + p.toInt)).map (fun v => (v, s')) ∧
      (∀ d, readParam (.noMode d) s = .error .unknownAddressingMode) ∧
      (∀ v, writeParam .position v s = memWrite s' p.toInt v ∧
        writeParam .immediate v s = .error .invalidWriteMode ∧
        writeParam .relative v s = memWrite s' (s.rb.toInt + p.toInt) v ∧
        ∀ d, writeParam (.noMode d) v s = .error .unknownAddressingMode) ∧
      (p.toInt < 0 → readParam .position s = .error .invalidAddress ∧
        ∀ v, writeParam .position v s = .error .invalidAddress) ∧
      (s.rb.toInt + p.toInt < 0 → readParam .relative s = .error .invalidAddress ∧
        ∀ v, writeParam .relative v s = .error .invalidAddress))

/-! ### The tape -/

/-- R52: a read checks the address and returns the cell, and a cell not written since the reset holds `Base`, which is
0 at and beyond the end of the image. -/
def Obligations.ReadOfCellNeverWritten : Prop :=
  (∀ (s : State) (a : Int), memRead s a = (checkAddr s.cfg a).map s.cell) ∧
  (∀ (cfg : Config) (writes : List (Nat × Word)) (a : Nat), (∀ w ∈ writes, w.1 ≠ a) →
    (writes.foldl (fun s w => s.store w.1 w.2) (State.resetOf cfg)).cell a
      = if h : a < cfg.program.length then cfg.program[a] else 0)

/-- spec/20_memory.md section 1, memory write: the address check, then the capacity check, then the one cell and `W`,
and no register; and, as the section infers, a cell beyond the image written with 0 reads as one never written. -/
def Obligations.WriteStoresOneCell : Prop :=
  ∀ (s : State) (a : Int) (v : Word),
    (¬ s.ValidAddress a → memWrite s a v = .error .invalidAddress) ∧
    (s.ValidAddress a → s.capacityExceededAt a.toNat = true → memWrite s a v = .error .capacityExceeded) ∧
    (s.ValidAddress a → s.capacityExceededAt a.toNat = false → memWrite s a v = .ok (s.store a.toNat v)) ∧
    (∀ n : Nat, (s.store n v).cell n = v ∧ (∀ b, b ≠ n → (s.store n v).cell b = s.cell b) ∧
      s.store n v = { s with tape := (s.store n v).tape, written := (s.store n v).written }) ∧
    (∀ t, memWrite s a 0 = .ok t → s.cfg.program.length ≤ a.toNat → (∀ c ∈ s.tape, c.1 ≠ a.toNat) →
      ∀ b, t.cell b = s.cell b)

/-- spec/20_memory.md section 1, the address check (the spec's decision D4): the check, and that it is made at the fetch, at every slot, at every operand read and
at every write. -/
def Obligations.AddressCheckOnEveryAccess : Prop :=
  ∀ (s : State) (a : Int),
    (¬ (a < 0 ∨ ∃ limit, s.cfg.addrLimit = some limit ∧ (limit : Int) ≤ a) → checkAddr s.cfg a = .ok a.toNat) ∧
    ((a < 0 ∨ ∃ limit, s.cfg.addrLimit = some limit ∧ (limit : Int) ≤ a) →
      checkAddr s.cfg a = .error .invalidAddress ∧
      memRead s a = .error .invalidAddress ∧ (∀ v, memWrite s a v = .error .invalidAddress) ∧
      (s.ip = a → fetchDecode s = .error .invalidAddress ∧ slot s = .error .invalidAddress ∧
        (∀ m, readParam m s = .error .invalidAddress) ∧ ∀ m v, writeParam m v s = .error .invalidAddress) ∧
      (∀ m, s.ValidAddress s.ip → s.effectiveAddress 0 m = some a →
        readParam m s = .error .invalidAddress ∧ ∀ v, writeParam m v s = .error .invalidAddress))

/-- spec/20_memory.md section 5, capacity (the spec's decision D20): when a write at a valid address raises CapacityExceeded, what it adds to `W`, and
that a reset empties `W`. -/
def Obligations.CapacityCheckAndGrowth : Prop :=
  ∀ (s : State) (a : Nat) (v : Word), s.ValidAddress a →
    ((∃ c, s.cfg.tapeCapacity = some c ∧ s.cfg.program.length ≤ a ∧ a ∉ s.written ∧ s.written.length = c) →
      memWrite s a v = .error .capacityExceeded) ∧
    (¬ (∃ c, s.cfg.tapeCapacity = some c ∧ s.cfg.program.length ≤ a ∧ a ∉ s.written ∧ s.written.length = c) →
      ∃ t, memWrite s a v = .ok t ∧
        ∀ b, b ∈ t.written ↔ b ∈ s.written ∨ (b = a ∧ s.cfg.program.length ≤ a)) ∧
    s.doReset.written = []

/-- spec/20_memory.md section 1 (the representation is not observable): two canonical tapes over one image that read
the same everywhere are the same data (log 2). -/
def Obligations.TapesThatReadAlikeAreEqual : Prop :=
  ∀ (p : List Word) (m m' : Memory), Memory.wf p m = true → Memory.wf p m' = true →
    (∀ a, Memory.read p m a = Memory.read p m' a) → m = m'

/-! ### Results -/

/-- spec/41_alu.md section 1 (the spec's decision D2), with its use for the new `RB`. -/
def Obligations.ResultWidth : Prop :=
  (∀ (cfg : Config) (x : Int),
    ((-(2 ^ 63) ≤ x ∧ x ≤ 2 ^ 63 - 1) → ∃ r, result64 cfg x = .ok r ∧ r.toInt = x) ∧
    (¬ (-(2 ^ 63) ≤ x ∧ x ≤ 2 ^ 63 - 1) →
      (cfg.overflowPolicy = .fault → result64 cfg x = .error .arithmeticOverflow) ∧
      (cfg.overflowPolicy = .wrap →
        ∃ r, result64 cfg x = .ok r ∧ r.toInt = (x + 2 ^ 63) % 2 ^ 64 - 2 ^ 63))) ∧
  (∀ (s : State) (m : Mode) (a : Word), s.SourceGives 0 m a →
    (∀ r, result64 s.cfg (s.rb.toInt + a.toInt) = .ok r →
      exec (.adjustRelativeBase m) s = .next ((s.setIp (s.ip + 1)).setRb r)) ∧
    (∀ k, result64 s.cfg (s.rb.toInt + a.toInt) = .error k →
      exec (.adjustRelativeBase m) s = .next (s.raise k)))

/-- spec/41_alu.md section 2, add: with readable sources and a writable destination, the exact sum is stored, or under
the policy `wrap` the wrapped one. -/
def Obligations.AddStoresSum : Prop :=
  ∀ (s : State) (m1 m2 m3 : Mode) (a b : Word) (d : Nat),
    s.SourceGives 0 m1 a → s.SourceGives 1 m2 b → s.DestinationIs 2 m3 d →
    (inInt64 (a.toInt + b.toInt) = true →
      ∃ r, r.toInt = a.toInt + b.toInt ∧ exec (.add m1 m2 m3) s = .next ((s.store d r).setIp (s.ip + 3))) ∧
    (inInt64 (a.toInt + b.toInt) = false → s.cfg.overflowPolicy = .wrap →
      ∃ r, r.toInt = (a.toInt + b.toInt + 2 ^ 63) % 2 ^ 64 - 2 ^ 63 ∧
        exec (.add m1 m2 m3) s = .next ((s.store d r).setIp (s.ip + 3)))

/-- spec/41_alu.md section 2, multiply. -/
def Obligations.MultiplyStoresProduct : Prop :=
  ∀ (s : State) (m1 m2 m3 : Mode) (a b : Word) (d : Nat),
    s.SourceGives 0 m1 a → s.SourceGives 1 m2 b → s.DestinationIs 2 m3 d →
    (inInt64 (a.toInt * b.toInt) = true →
      ∃ r, r.toInt = a.toInt * b.toInt ∧ exec (.multiply m1 m2 m3) s = .next ((s.store d r).setIp (s.ip + 3))) ∧
    (inInt64 (a.toInt * b.toInt) = false → s.cfg.overflowPolicy = .wrap →
      ∃ r, r.toInt = (a.toInt * b.toInt + 2 ^ 63) % 2 ^ 64 - 2 ^ 63 ∧
        exec (.multiply m1 m2 m3) s = .next ((s.store d r).setIp (s.ip + 3)))

/-- spec/41_alu.md section 2, less-than and equals: 1 or 0, by the signed values. -/
def Obligations.CompareStoresOneOrZero : Prop :=
  ∀ (s : State) (m1 m2 m3 : Mode) (a b : Word) (d : Nat),
    s.SourceGives 0 m1 a → s.SourceGives 1 m2 b → s.DestinationIs 2 m3 d →
    exec (.lessThan m1 m2 m3) s = .next ((s.store d (if a.toInt < b.toInt then 1 else 0)).setIp (s.ip + 3)) ∧
    exec (.equals m1 m2 m3) s = .next ((s.store d (if a.toInt = b.toInt then 1 else 0)).setIp (s.ip + 3))

/-- spec/42_io.md, input: the next value of the call is stored and the index advances. -/
def Obligations.InputStoresNextValue : Prop :=
  ∀ (s : State) (m : Mode) (v : Word) (d : Nat), s.inputs[s.inIdx]? = some v → s.DestinationIs 0 m d →
    exec (.input m) s = .next (((s.store d v).setInIdx (s.inIdx + 1)).setIp (s.ip + 1))

/-- spec/42_io.md, output: the run suspends with the operand, `IP` past the instruction, `ACTIVE` kept. -/
def Obligations.OutputSuspends : Prop :=
  ∀ (s : State) (m : Mode) (a : Word), s.SourceGives 0 m a →
    ∃ t, exec (.output m) s = .next t ∧ t.running = false ∧ t.resp = some (.output a) ∧ t.active = s.active ∧
      t.ip = s.ip + 1 ∧ t.last = .output ∧ t.out = a ∧ t.fault = none

/-- spec/43_control.md, both jumps (the spec's decision D8: both operands are read): the target when taken, else the
next instruction. -/
def Obligations.JumpsGoToTarget : Prop :=
  ∀ (s : State) (m1 m2 : Mode) (c target : Word), s.SourceGives 0 m1 c → s.SourceGives 1 m2 target →
    exec (.jumpIfTrue m1 m2) s = .next (s.setIp (if c.toInt ≠ 0 then target.toInt else s.ip + 2)) ∧
    exec (.jumpIfFalse m1 m2) s = .next (s.setIp (if c.toInt = 0 then target.toInt else s.ip + 2))

/-- spec/44_machine_control.md, adjust-relative-base: the exact sum, or under the policy `wrap` the wrapped one. -/
def Obligations.AdjustAddsToRelativeBase : Prop :=
  ∀ (s : State) (m : Mode) (a : Word), s.SourceGives 0 m a →
    (inInt64 (s.rb.toInt + a.toInt) = true →
      ∃ r, r.toInt = s.rb.toInt + a.toInt ∧
        exec (.adjustRelativeBase m) s = .next ((s.setIp (s.ip + 1)).setRb r)) ∧
    (inInt64 (s.rb.toInt + a.toInt) = false → s.cfg.overflowPolicy = .wrap →
      ∃ r, r.toInt = (s.rb.toInt + a.toInt + 2 ^ 63) % 2 ^ 64 - 2 ^ 63 ∧
        exec (.adjustRelativeBase m) s = .next ((s.setIp (s.ip + 1)).setRb r))

/-- R201: `OP = 99` and no other digit, one cell; `ACTIVE` cleared, `Halted`, the latches, `IP` after the word; it
never faults; and from then on, until a `reset`, every `resume` fails with NotActive. -/
def Obligations.HaltEndsTheRun : Prop :=
  (∀ w : Word, 0 ≤ w.toInt → w.toInt % 100 = 99 → decode w = .ok .halt) ∧ Instr.halt.length = 1 ∧
  (∀ s : State, s.running = true → s.ValidAddress s.ip → decode (s.cell s.ip.toNat) = .ok .halt →
    ∃ t, step s = .next t ∧ t.active = false ∧ t.running = false ∧ t.resp = some .halted ∧ t.last = .halted ∧
      t.out = 0 ∧ t.fault = none ∧ t.ip = s.ip + 1) ∧
  (∀ u v : State, u.active = false → u.running = false → step u = .next v →
    (∃ rest, u.pending = .reset :: rest) ∨
      (v.active = false ∧ v.running = false ∧
        ∀ l rest, u.pending = .resume l :: rest → v.resp = some (.failed .notActive))) ∧
  (∀ s : State, exec .halt s = .next s.returnHalted)

/-! ### Faults -/

/-- spec/40_execute_cycle.md section 3 and spec/60_exceptions.md section 2 (the spec's decision D7): which fault an ALU
instruction raises, the first in order: source 1, source 2, the computation, the destination. -/
def Obligations.AluFaultPriority : Prop :=
  ∀ (s : State) (m1 m2 m3 : Mode) (k : FaultKind),
    (s.SourceFaults 0 m1 k → ∀ i ∈ [Instr.add m1 m2 m3, .multiply m1 m2 m3, .lessThan m1 m2 m3, .equals m1 m2 m3],
      exec i s = .next (s.raise k)) ∧
    (∀ a, s.SourceGives 0 m1 a → s.SourceFaults 1 m2 k →
      ∀ i ∈ [Instr.add m1 m2 m3, .multiply m1 m2 m3, .lessThan m1 m2 m3, .equals m1 m2 m3],
        exec i s = .next (s.raise k)) ∧
    (∀ a b, s.SourceGives 0 m1 a → s.SourceGives 1 m2 b →
      (inInt64 (a.toInt + b.toInt) = false → s.cfg.overflowPolicy = .fault →
        exec (.add m1 m2 m3) s = .next (s.raise .arithmeticOverflow)) ∧
      (inInt64 (a.toInt * b.toInt) = false → s.cfg.overflowPolicy = .fault →
        exec (.multiply m1 m2 m3) s = .next (s.raise .arithmeticOverflow)) ∧
      (s.DestinationFaults 2 m3 k →
        (inInt64 (a.toInt + b.toInt) = true ∨ s.cfg.overflowPolicy = .wrap →
          exec (.add m1 m2 m3) s = .next (s.raise k)) ∧
        (inInt64 (a.toInt * b.toInt) = true ∨ s.cfg.overflowPolicy = .wrap →
          exec (.multiply m1 m2 m3) s = .next (s.raise k)) ∧
        exec (.lessThan m1 m2 m3) s = .next (s.raise k) ∧ exec (.equals m1 m2 m3) s = .next (s.raise k)))

/-- spec/42_io.md, spec/43_control.md and spec/44_machine_control.md (the spec's decisions D2, D7, D8): which fault
input, output, the jumps and adjust-relative-base raise; input's InputExhausted comes before every destination check,
and a later destination fault leaves `IN_IDX` advanced. -/
def Obligations.OtherFaultPriority : Prop :=
  ∀ (s : State) (m1 m2 : Mode) (k : FaultKind),
    (s.inputs.length ≤ s.inIdx → exec (.input m1) s = .next (s.raise .inputExhausted)) ∧
    (s.inIdx < s.inputs.length → s.DestinationFaults 0 m1 k →
      exec (.input m1) s = .next ((s.setInIdx (s.inIdx + 1)).raise k)) ∧
    (s.SourceFaults 0 m1 k →
      ∀ i ∈ [Instr.output m1, .adjustRelativeBase m1, .jumpIfTrue m1 m2, .jumpIfFalse m1 m2],
        exec i s = .next (s.raise k)) ∧
    (∀ c, s.SourceGives 0 m1 c → s.SourceFaults 1 m2 k →
      ∀ i ∈ [Instr.jumpIfTrue m1 m2, .jumpIfFalse m1 m2], exec i s = .next (s.raise k)) ∧
    (∀ a, s.SourceGives 0 m1 a → inInt64 (s.rb.toInt + a.toInt) = false → s.cfg.overflowPolicy = .fault →
      exec (.adjustRelativeBase m1) s = .next (s.raise .arithmeticOverflow))

/-- spec/60_exceptions.md section 4 (the spec's decision D9; `IP` afterwards is a free value and nothing is said of it):
what raising the kind `k` sets and keeps, and what a step that ends in a fault leaves. -/
def Obligations.FaultEntryIsPrecise : Prop :=
  (∀ (s : State) (k : FaultKind),
    (s.raise k).resp = some (.failed k) ∧ (s.raise k).fault = some k ∧ (s.raise k).faultCode = k.code ∧
      (s.raise k).last = .failed ∧ (s.raise k).active = false ∧ (s.raise k).running = false ∧
      (∀ a, (s.raise k).cell a = s.cell a) ∧ (s.raise k).rb = s.rb ∧ (s.raise k).written = s.written ∧
      (s.raise k).out = s.out ∧ (s.raise k).cfg = s.cfg) ∧
  (∀ (s t : State) (k : FaultKind), s.running = true → s.resp = none → step s = .next t →
    t.resp = some (.failed k) →
    t.active = false ∧ t.last = .failed ∧ t.fault = some k ∧ t.faultCode = k.code ∧ t.running = false ∧
      (∀ a, t.cell a = s.cell a) ∧ t.rb = s.rb ∧ t.written = s.written ∧ t.out = s.out ∧ t.cfg = s.cfg)

/-- spec/30_encoding.md section 3, mode legality: an instruction whose modes are legal never faults over a mode. -/
def Obligations.LegalModesNeverFault : Prop :=
  ∀ (i : Instr) (s t : State) (k : FaultKind), WellFormed i = true → s.resp = none → exec i s = .next t →
    t.resp = some (.failed k) → k ≠ .unknownAddressingMode ∧ k ≠ .invalidWriteMode

/-! ### What each instruction leaves unchanged -/

/-- spec/40_execute_cycle.md section 3, the ALU instructions: only `IP`, the destination cell and `W` at it; or the
fault entry. -/
def Obligations.AluFrame : Prop :=
  ∀ (i : Instr) (m1 m2 m3 : Mode) (s t : State),
    i ∈ [Instr.add m1 m2 m3, .multiply m1 m2 m3, .lessThan m1 m2 m3, .equals m1 m2 m3] → exec i s = .next t →
    t.cfg = s.cfg ∧ t.rb = s.rb ∧ t.inIdx = s.inIdx ∧ t.out = s.out ∧ t.pending = s.pending ∧
    (∀ b : Nat, decodeDestination m3 s.rb (s.literal 2) ≠ .ok (b : Int) →
      t.cell b = s.cell b ∧ (b ∈ t.written ↔ b ∈ s.written)) ∧
    ((t.active = s.active ∧ t.running = s.running ∧ t.inputs = s.inputs ∧ t.fault = s.fault ∧ t.last = s.last ∧
        t.resp = s.resp ∧ t.draws = s.draws) ∨
      ∃ k, t = s.raise k)

/-- spec/42_io.md, input: only `IP`, `IN_IDX`, the destination cell and `W` at it; or the fault entry. -/
def Obligations.InputFrame : Prop :=
  ∀ (m : Mode) (s t : State), exec (.input m) s = .next t →
    t.cfg = s.cfg ∧ t.rb = s.rb ∧ t.out = s.out ∧ t.pending = s.pending ∧
    (∀ b : Nat, decodeDestination m s.rb (s.literal 0) ≠ .ok (b : Int) →
      t.cell b = s.cell b ∧ (b ∈ t.written ↔ b ∈ s.written)) ∧
    ((t.inIdx = s.inIdx + 1 ∧ t.active = s.active ∧ t.running = s.running ∧ t.inputs = s.inputs ∧
        t.fault = s.fault ∧ t.last = s.last ∧ t.resp = s.resp ∧ t.draws = s.draws) ∨
      ∃ k, t = s.raise k ∨ t = (s.setInIdx (s.inIdx + 1)).raise k)

/-- spec/43_control.md, both jumps: only `IP`; or the fault entry. -/
def Obligations.JumpFrame : Prop :=
  ∀ (m1 m2 : Mode) (i : Instr) (s t : State), i ∈ [Instr.jumpIfTrue m1 m2, .jumpIfFalse m1 m2] →
    exec i s = .next t →
    (∀ b, t.cell b = s.cell b) ∧ t.written = s.written ∧ t.rb = s.rb ∧
    (t = s.setIp t.ip ∨ ∃ k, t = s.raise k)

/-- spec/44_machine_control.md, adjust-relative-base: only `IP` and `RB`; or the fault entry. -/
def Obligations.AdjustFrame : Prop :=
  ∀ (m : Mode) (s t : State), exec (.adjustRelativeBase m) s = .next t →
    (∀ b, t.cell b = s.cell b) ∧ t.written = s.written ∧
    (t = (s.setIp t.ip).setRb t.rb ∨ ∃ k, t = s.raise k)

/-- spec/42_io.md output and spec/44_machine_control.md halt: the tape, `W`, `RB`, `IN_IDX` and the parameters stay;
only `IP`, `ACTIVE` (halt), the latches, the response and the call's inputs (log 8) change; or output's fault entry. -/
def Obligations.SuspendAndHaltFrame : Prop :=
  (∀ (m : Mode) (s t : State), exec (.output m) s = .next t →
    (∀ b, t.cell b = s.cell b) ∧ t.written = s.written ∧ t.rb = s.rb ∧ t.inIdx = s.inIdx ∧ t.cfg = s.cfg ∧
    t.pending = s.pending ∧ ((t.active = s.active ∧ t.draws = s.draws) ∨ ∃ k, t = s.raise k)) ∧
  (∀ s t : State, exec .halt s = .next t →
    (∀ b, t.cell b = s.cell b) ∧ t.written = s.written ∧ t.rb = s.rb ∧ t.ip = s.ip ∧ t.inIdx = s.inIdx ∧
    t.cfg = s.cfg ∧ t.pending = s.pending ∧ t.draws = s.draws)

/-! ### The host's commands -/

/-- R54: the tape reset that every `reset` performs reloads the image and clears all writes, and a second one changes
nothing. -/
def Obligations.TapeResetReloadsImage : Prop :=
  ∀ (s : State) (a : Nat),
    (∀ h : a < s.cfg.program.length, s.doReset.cell a = s.cfg.program[a]) ∧
    (s.cfg.program.length ≤ a → s.doReset.cell a = 0) ∧
    s.doReset.doReset.cell a = s.doReset.cell a

/-- spec/10_state.md section 10 (the spec's decisions D11, D12): the value of every piece of state after `reset`. -/
def Obligations.StateAfterReset : Prop :=
  ∀ s : State,
    (∀ a, s.doReset.cell a = if h : a < s.cfg.program.length then s.cfg.program[a] else 0) ∧
    s.doReset.ip = 0 ∧ s.doReset.rb = 0 ∧ s.doReset.active = true ∧ s.doReset.inputs = [] ∧
    s.doReset.inIdx = 0 ∧ s.doReset.fault = none ∧ s.doReset.last = .none ∧ s.doReset.out = 0 ∧
    s.doReset.cfg = s.cfg

/-- spec/10_state.md section 10 (the spec's decision D12; that no response stands at power-on is log 6): power-on is as after `reset` but inactive, and a `resume` before the first `reset`
fails. -/
def Obligations.StateAtPowerOn : Prop :=
  ∀ cfg : Config,
    (State.powerOn cfg).active = false ∧
    { State.powerOn cfg with active := true, resp := some .done } = State.resetOf cfg ∧
    ∀ l rest, step { State.powerOn cfg with pending := .resume l :: rest } =
      .next { State.powerOn cfg with pending := rest, resp := some (.failed .notActive) }

/-- spec/45_host_interface.md section 2, reset (the spec's decisions D11, D12): accepted by every idle block, whatever its
state, with the state after `reset`; the host's further commands and the count of free values are the model's own (logs
4, 5). -/
def Obligations.ResetCommand : Prop :=
  (∀ (s : State) (rest : List Command), s.running = false → s.pending = .reset :: rest →
    step s = .next { State.resetOf s.cfg with pending := rest, draws := s.draws }) ∧
  (∀ s : State, s.doReset.doReset = s.doReset ∧ s.doReset.resp = some .done)

/-- spec/45_host_interface.md section 2, stop (the spec's decision D21). -/
def Obligations.StopCommand : Prop :=
  ∀ (s : State) (rest : List Command), s.running = false → s.pending = .stop :: rest →
    step s = .next { s with active := false, pending := rest, resp := some .done }

/-- spec/45_host_interface.md section 2, the start of a `resume` (the spec's decision D17): the guard, the refusal
beyond `MAX_INPUTS` (log 9), and the run that starts. -/
def Obligations.ResumeCommand : Prop :=
  ∀ (s : State) (l : List Word) (rest : List Command), s.running = false → s.pending = .resume l :: rest →
    (s.active = false → step s = .next { s with pending := rest, resp := some (.failed .notActive) }) ∧
    (s.active = true → (∃ n, s.cfg.maxInputs = some n ∧ n < l.length) → step s = .refused .tooManyInputs) ∧
    (s.active = true → (∀ n, s.cfg.maxInputs = some n → l.length ≤ n) →
      step s = .next { s with pending := rest, inputs := l, inIdx := 0, running := true, resp := none })

/-- R263: the guard failure changes nothing but the response given. -/
def Obligations.GuardFailureChangesNothing : Prop :=
  ∀ (s : State) (l : List Word) (rest : List Command), s.running = false → s.active = false →
    s.pending = .resume l :: rest →
    ∃ t, step s = .next t ∧ t.resp = some (.failed .notActive) ∧ t.ip = s.ip ∧ t.rb = s.rb ∧ t.tape = s.tape ∧
      t.written = s.written ∧ t.active = s.active ∧ t.fault = s.fault ∧ t.last = s.last ∧ t.out = s.out ∧
      t.inputs = s.inputs ∧ t.inIdx = s.inIdx ∧ t.running = false

/-- spec/45_host_interface.md section 2, responses (the spec's decisions D10, D11): the six responses and the latches each sets. -/
def Obligations.ResponsesSetLatches : Prop :=
  (∀ (s : State) (m : Mode) (a : Word), s.active = true → s.SourceGives 0 m a →
    ∃ t, exec (.output m) s = .next t ∧ t.resp = some (.output a) ∧ t.active = true ∧ t.last = .output ∧
      t.out = a ∧ t.faultCode = 0) ∧
  (∀ s : State, ∃ t, exec .halt s = .next t ∧ t.resp = some .halted ∧ t.active = false ∧ t.last = .halted ∧
    t.out = 0 ∧ t.faultCode = 0) ∧
  (∀ (s t : State) (k : FaultKind), s.running = true → s.resp = none → step s = .next t →
    t.resp = some (.failed k) →
    t.active = false ∧ t.last = .failed ∧ t.out = s.out ∧ t.faultCode = k.code) ∧
  (∀ (s : State) (l : List Word) (rest : List Command), s.running = false → s.active = false →
    s.pending = .resume l :: rest →
    ∃ t, step s = .next t ∧ t.resp = some (.failed .notActive) ∧ t.active = false ∧ t.last = s.last ∧
      t.out = s.out ∧ t.fault = s.fault) ∧
  (∀ (s : State) (rest : List Command), s.running = false → s.pending = .reset :: rest →
    ∃ t, step s = .next t ∧ t.resp = some .done ∧ t.active = true ∧ t.last = .none ∧ t.out = 0 ∧
      t.faultCode = 0) ∧
  (∀ (s : State) (rest : List Command), s.running = false → s.pending = .stop :: rest →
    ∃ t, step s = .next t ∧ t.resp = some .done ∧ t.active = false ∧ t.last = s.last ∧ t.out = s.out ∧
      t.fault = s.fault)

/-- spec/45_host_interface.md section 1: every transition of the control state machine, and no other one out of a run; which state each control state's
`ACTIVE` is. -/
def Obligations.ControlStateMachine : Prop :=
  (∀ (s : State) (rest : List Command), s.control ≠ .running → s.pending = .reset :: rest →
    ∃ t, step s = .next t ∧ t.control = .idleActive ∧ t.resp = some .done) ∧
  (∀ (s : State) (rest : List Command), s.control ≠ .running → s.pending = .stop :: rest →
    ∃ t, step s = .next t ∧ t.control = .idleInactive ∧ t.resp = some .done) ∧
  (∀ (s : State) (l : List Word) (rest : List Command), s.control = .idleInactive →
    s.pending = .resume l :: rest →
    ∃ t, step s = .next t ∧ t.control = .idleInactive ∧ t.resp = some (.failed .notActive)) ∧
  (∀ (s : State) (l : List Word) (rest : List Command), s.control = .idleActive → s.pending = .resume l :: rest →
    tooManyInputs s.cfg l = false →
    ∃ t, step s = .next t ∧ t.control = .running ∧ t.active = true ∧ t.resp = none) ∧
  (∀ s : State, (s.control = .idleInactive → s.active = false) ∧ (s.control = .idleActive → s.active = true)) ∧
  (∀ s : State, s.control = .running → s.active = true → s.resp = none →
    ∃ t, step s = .next t ∧
      ((t.control = .running ∧ t.active = true ∧ t.resp = none) ∨
        (t.control = .idleActive ∧ (∃ v, t.resp = some (.output v)) ∧ ∃ m, s.NextInstr (.output m)) ∨
        (t.control = .idleInactive ∧ t.resp = some .halted ∧ s.NextInstr .halt) ∨
        (t.control = .idleInactive ∧ ∃ k, t.resp = some (.failed k) ∧ t.fault = some k)))

/-- spec/70_reset_and_hazards.md section 2: the boot order of a built engine. -/
def Obligations.BootOrder : Prop :=
  ∀ (cfg : Config) (l : List Word) (rest : List Command), (∀ n, cfg.maxInputs = some n → l.length ≤ n) →
    ∃ t u, step { State.powerOn cfg with pending := .reset :: .resume l :: rest } = .next t ∧ step t = .next u ∧
      u.running = true ∧ u.active = true ∧ u.ip = 0 ∧ u.rb = 0 ∧ u.inputs = l ∧ u.inIdx = 0 ∧ u.pending = rest ∧
      ∀ a, u.cell a = if h : a < cfg.program.length then cfg.program[a] else 0

/-- spec/45_host_interface.md section 3, suspension is invisible to the program: an output and the next `resume` leave
the state the program sees as if it had gone on, with that call's inputs; and an idle block without a command keeps all
its state (spec/60_exceptions.md section 6, log 5). -/
def Obligations.SuspensionIsInvisible : Prop :=
  (∀ s : State, s.running = false → s.pending = [] → step s = .next s) ∧
  ∀ (s : State) (m : Mode) (a : Word) (l : List Word) (rest : List Command),
    s.NextInstr (.output m) → (s.setIp (s.ip + 1)).SourceGives 0 m a → s.active = true →
    s.pending = .resume l :: rest → tooManyInputs s.cfg l = false →
    ∃ t u, step s = .next t ∧ t.resp = some (.output a) ∧ step t = .next u ∧ u.running = true ∧ u.active = true ∧
      u.ip = s.ip + 2 ∧ u.rb = s.rb ∧ u.tape = s.tape ∧ u.written = s.written ∧ u.cfg = s.cfg ∧
      u.inputs = l ∧ u.inIdx = 0

/-- spec/45_host_interface.md section 4 (the spec's decision D11) and spec/60_exceptions.md section 1 (its decision D10):
the register map, the fields of `STATUS` and its reserved bits, the numbers of `LAST` and of the fault kinds, and the
values after `reset` and at power-on. -/
def Obligations.RegisterMap : Prop :=
  (∀ s : State, s.running = false →
    readRegister s 0 = .ok s.ip ∧ readRegister s 1 = .ok s.rb.toInt ∧ readRegister s 2 = .ok s.statusWord.toNat ∧
    readRegister s 3 = .ok s.out.toInt ∧ readRegister s 4 = .ok s.inIdx) ∧
  (∀ s : State,
    s.statusWord.toNat % 2 = (if s.active then 1 else 0) ∧
    s.statusWord.toNat / 2 % 4 = s.last.code ∧
    s.statusWord.toNat / 8 % 32 = 0 ∧
    s.statusWord.toNat / 256 % 256 = s.faultCode ∧
    s.statusWord.toNat / 65536 = 0) ∧
  (Last.none.code = 0 ∧ Last.output.code = 1 ∧ Last.halted.code = 2 ∧ Last.failed.code = 3) ∧
  (FaultKind.notActive.code = 1 ∧ FaultKind.alreadyActive.code = 2 ∧ FaultKind.unknownOpcode.code = 3 ∧
    FaultKind.unknownAddressingMode.code = 4 ∧ FaultKind.invalidWriteMode.code = 5 ∧
    FaultKind.inputExhausted.code = 6 ∧ FaultKind.invalidAddress.code = 7 ∧
    FaultKind.arithmeticOverflow.code = 8 ∧ FaultKind.capacityExceeded.code = 9) ∧
  (∀ s : State, (s.fault = none → s.faultCode = 0) ∧ ∀ k, s.fault = some k → s.faultCode = k.code) ∧
  (∀ cfg : Config, ∀ index < 5,
    readRegister (State.resetOf cfg) index = .ok (if index = 2 then 1 else 0) ∧
    readRegister (State.powerOn cfg) index = .ok 0)

/-- spec/45_host_interface.md section 4 (the spec's decision D15): an idle block shows every register and every cell; a negative address is
refused. -/
def Obligations.ObservationPort : Prop :=
  ∀ s : State, s.running = false →
    (∀ index < 5, ∃ v, readRegister s index = .ok v) ∧
    (∀ a, s.ValidAddress a → observeCell s a = .ok (s.cell a.toNat)) ∧
    (∀ a, a < 0 → observeCell s a = .error .negativeAddress)

/-! ### Rules over every step -/

/-- spec/10_state.md section 7 and spec/00_scope.md section 4: the image and the parameters are never written. -/
def Obligations.ParametersNeverChange : Prop :=
  ∀ s t : State, step s = .next t → t.cfg = s.cfg

/-- R25: what sets `ACTIVE`, what clears it, and what leaves it. -/
def Obligations.ActiveChangesOnlyAsStated : Prop :=
  (∀ (s : State) (rest : List Command), s.running = false → s.pending = .reset :: rest →
    ∃ t, step s = .next t ∧ t.active = true) ∧
  (∀ s t : State, step s = .next t → s.active = false → t.active = true →
    s.running = false ∧ ∃ rest, s.pending = .reset :: rest) ∧
  (∀ s t : State, step s = .next t → s.active = true → t.active = false →
    s.NextInstr .halt ∨ (s.running = true ∧ ∃ k, t.resp = some (.failed k)) ∨
      (s.running = false ∧ ∃ rest, s.pending = .stop :: rest)) ∧
  (∀ s : State, ∃ t, exec .halt s = .next t ∧ t.active = false) ∧
  (∀ (s t : State) (k : FaultKind), s.running = true → s.resp = none → step s = .next t →
    t.resp = some (.failed k) → t.active = false) ∧
  (∀ (s : State) (rest : List Command), s.running = false → s.pending = .stop :: rest →
    ∃ t, step s = .next t ∧ t.active = false) ∧
  (∀ (s : State) (l : List Word) (rest : List Command), s.running = false → s.active = false →
    s.pending = .resume l :: rest →
    ∃ t, step s = .next t ∧ t.resp = some (.failed .notActive) ∧ t.active = s.active)

/-- spec/10_state.md section 4: only adjust-relative-base and `reset` write `RB`. -/
def Obligations.RelativeBaseChangesOnlyByAdjust : Prop :=
  ∀ s t : State, step s = .next t → t.rb ≠ s.rb →
    (∃ m, s.NextInstr (.adjustRelativeBase m)) ∨ (s.running = false ∧ ∃ rest, s.pending = .reset :: rest)

/-- spec/40_execute_cycle.md section 3 and spec/43_control.md: an instruction that does not fault leaves `IP` past its
parameters, and only a taken jump goes elsewhere, to its target. -/
def Obligations.OnlyTakenJumpsRedirect : Prop :=
  ∀ (i : Instr) (s t : State), s.resp = none → exec i s = .next t →
    (∃ k, t.resp = some (.failed k)) ∨ t.ip = s.ip + i.paramCount ∨
      ∃ m1 m2 c target, s.SourceGives 0 m1 c ∧ s.SourceGives 1 m2 target ∧ t.ip = target.toInt ∧
        ((i = .jumpIfTrue m1 m2 ∧ c.toInt ≠ 0) ∨ (i = .jumpIfFalse m1 m2 ∧ c.toInt = 0))

/-- spec/10_state.md section 6 (the spec's decision D17; that the inputs are emptied at the end of a call is log 8): the
index restarts with every call, only input advances it, by one, and a call's inputs end with it. -/
def Obligations.InputIndexIsPerCall : Prop :=
  (∀ (s : State) (l : List Word) (rest : List Command), s.running = false → s.active = true →
    s.pending = .resume l :: rest → tooManyInputs s.cfg l = false →
    ∃ t, step s = .next t ∧ t.inIdx = 0 ∧ t.inputs = l) ∧
  (∀ (i : Instr) (s t : State), exec i s = .next t →
    t.inIdx = s.inIdx ∨ ((∃ m, i = .input m) ∧ t.inIdx = s.inIdx + 1)) ∧
  (∀ (i : Instr) (s t : State), s.running = true → exec i s = .next t → t.running = false → t.inputs = [])

/-- spec/45_host_interface.md section 1: during a run the host has no move; its further commands are neither taken nor
seen. -/
def Obligations.HostHasNoMoveDuringRun : Prop :=
  ∀ (s : State) (p : List Command), s.running = true →
    ∃ t, step s = .next t ∧ t.pending = s.pending ∧ step { s with pending := p } = .next { t with pending := p }

/-- spec/10_state.md section 8, "These latches add no behaviour": two runs that differ in the latches only stay alike
in everything else. -/
def Obligations.LatchesAddNoBehaviour : Prop :=
  ∀ (s : State) (f : Option FaultKind) (l : Last) (o : Word), s.running = true →
    ∃ t f' l' o', step s = .next t ∧
      step { s with fault := f, last := l, out := o } = .next { t with fault := f', last := l', out := o' }

/-- spec/20_memory.md sections 1, 2 and 5: every step keeps `W` the set of the grown addresses, and the tape and `W` within
`ADDR_LIMIT` and `TAPE_CAPACITY`. That the tape stays canonical, and `W` a rising list, is the model's own data form (log
2, DESIGN CHOICE; the section allows any representation that reads alike). -/
def Obligations.TapeInvariantIsKept : Prop :=
  ∀ s t : State, s.TapeInv → step s = .next t → t.TapeInv

/-- spec/45_host_interface.md sections 1 and 2: every step keeps a call's own state in order. That no inputs stand outside a
run is log 8 (DEDUCED), that a run holds no response is log 6 (DEDUCED), and the run's own bit is log 7 (DEDUCED). -/
def Obligations.CallInvariantIsKept : Prop :=
  ∀ s t : State, s.CallInv → step s = .next t → t.CallInv

/-- spec/45_host_interface.md section 2 and spec/60_exceptions.md sections 1 and 4: every step keeps the latches and the
response in agreement, an ended engine inactive, and the reserved code unused; the premise that a run is active is kept
by `CallInvariantIsKept`; that the response stands as a field of the state is log 6 (DEDUCED). -/
def Obligations.LatchInvariantIsKept : Prop :=
  ∀ s t : State, s.CallInv → s.LatchInv → step s = .next t → t.LatchInv

/-- spec/10_state.md section 10: the invariants hold after `reset` and at power-on, for every image and every parameter;
their clauses on the tape's form, the response and the inputs of no call are the model's (logs 2, 6, 8). -/
def Obligations.InvariantsHoldAfterReset : Prop :=
  ∀ cfg : Config,
    (State.resetOf cfg).TapeInv ∧ (State.resetOf cfg).CallInv ∧ (State.resetOf cfg).LatchInv ∧
    (State.powerOn cfg).TapeInv ∧ (State.powerOn cfg).CallInv ∧ (State.powerOn cfg).LatchInv

/-! ### The loader -/

/-- spec/30_encoding.md section 4 (the spec's decision D19; which characters are whitespace and which are digits is log
15): the loader gives the elements' values in order, and refuses the line exactly when an element is refused; an element
is an optional sign and at least one digit, of a value in int64; the elements are what stands between the commas of the
line; and the line is trimmed of the whitespace around it, all of it. -/
def Obligations.LoaderRefusesBadLines : Prop :=
  (∀ line : List Char,
    (loadImage line = none ↔ ∃ e ∈ splitCommas (trimSpace line), parseElement e = none) ∧
    ∀ image, loadImage line = some image →
      image.map some = (splitCommas (trimSpace line)).map parseElement) ∧
  (∀ (e : List Char) (w : Word), parseElement e = some w ↔
    ∃ sign ∈ [[], ['+'], ['-']], ∃ digits, e = sign ++ digits ∧ digits ≠ [] ∧ (∀ c ∈ digits, isDecimalDigit c) ∧
      -(2 ^ 63) ≤ signedValue sign digits ∧ signedValue sign digits ≤ 2 ^ 63 - 1 ∧
      w.toInt = signedValue sign digits) ∧
  (∀ text : List Char, splitCommas text ≠ [] ∧ (∀ e ∈ splitCommas text, ',' ∉ e) ∧
    [','].intercalate (splitCommas text) = text) ∧
  (∀ line : List Char, ∃ before after, line = before ++ trimSpace line ++ after ∧
    (∀ c ∈ before ++ after, c.isWhitespace = true) ∧
    (∀ c, (trimSpace line).head? = some c → c.isWhitespace = false) ∧
    ∀ c, (trimSpace line).getLast? = some c → c.isWhitespace = false)
end

