-- ==== Sys2Proof/Laws/Loader.lean ====
section
/-! SUPPORT. What the parts of the loader can do (spec/30_encoding.md R96). -/

namespace Sys2Proof.Machine

theorem isDigit_iff (c : Char) : c.isDigit = true ↔ isDecimalDigit c := by
  simp only [Char.isDigit, isDecimalDigit, Bool.and_eq_true, decide_eq_true_eq]
  exact Iff.rfl

/-- `digitsValue` accepts decimal digits alone, and folds them into the value read before. -/
theorem digitsValue_eq_some (cs : List Char) (acc n : Nat) :
    digitsValue cs acc = some n ↔
      (∀ c ∈ cs, isDecimalDigit c) ∧ n = cs.foldl (fun n c => 10 * n + (c.toNat - '0'.toNat)) acc := by
  induction cs generalizing acc with
  | nil => simp [digitsValue, eq_comm]
  | cons c cs ih =>
    by_cases h : c.isDigit = true
    · simp [digitsValue, h, ih, (isDigit_iff c).1 h]
    · simp [digitsValue, h, mt (isDigit_iff c).2 h]

/-- `parseDigits` accepts at least one decimal digit, and gives their value. -/
theorem parseDigits_eq_some (cs : List Char) (n : Nat) :
    parseDigits cs = some n ↔ cs ≠ [] ∧ (∀ c ∈ cs, isDecimalDigit c) ∧ n = decimalValue cs := by
  cases cs with
  | nil => simp [parseDigits]
  | cons c cs => simp only [parseDigits, digitsValue_eq_some, decimalValue]; simp

theorem splitCommas_ne_nil (cs : List Char) : splitCommas cs ≠ [] := by
  cases cs with
  | nil => simp [splitCommas]
  | cons c cs => simp only [splitCommas]; split <;> [skip; split] <;> simp

end Sys2Proof.Machine
end

