-- ==== Sys2Proof/Laws/Memory.lean ====
section
/-! SUPPORT. The tape as data: a read after a write, and every operation keeps the canonical form (spec/20_memory.md
R52, R53, R70; log 2). -/

namespace Sys2Proof.Machine

/-! ### Reads after writes -/

theorem Memory.lookup_erase (m : Memory) (a b : Nat) :
    Memory.lookup (Memory.erase m a) b = if b = a then none else Memory.lookup m b := by
  induction m with
  | nil => simp [Memory.erase, Memory.lookup]
  | cons c m ih =>
    obtain ⟨d, v⟩ := c
    by_cases hd : d = a <;> by_cases hb : d = b <;> simp_all [Memory.erase, Memory.lookup, eq_comm]

theorem Memory.lookup_insert (m : Memory) (a b : Nat) (v : Word) (h : Memory.lookup m a = none) :
    Memory.lookup (Memory.insert m a v) b = if b = a then some v else Memory.lookup m b := by
  induction m with
  | nil => simp [Memory.insert, Memory.lookup, eq_comm]
  | cons c m ih =>
    obtain ⟨d, u⟩ := c
    by_cases hda : d = a
    · simp [Memory.lookup, hda] at h
    · have hm : Memory.lookup m a = none := by simpa [Memory.lookup, hda] using h
      by_cases hlt : a < d
      · simp [Memory.insert, hlt, Memory.lookup, eq_comm]
      · by_cases hdb : d = b
        · subst hdb
          simp [Memory.insert, hlt, Memory.lookup, hda]
        · simp [Memory.insert, hlt, Memory.lookup, hdb, ih hm]

/-- A read after a write: the value at the written address, the old contents everywhere else. -/
theorem Memory.read_write (p : List Word) (m : Memory) (a b : Nat) (v : Word) :
    Memory.read p (Memory.write p m a v) b = if b = a then v else Memory.read p m b := by
  have herase := Memory.lookup_erase m a
  unfold Memory.write
  split
  · rename_i hv
    by_cases hb : b = a <;> simp [Memory.read, herase, hb, hv]
  · have hnone : Memory.lookup (Memory.erase m a) a = none := by simp [herase]
    by_cases hb : b = a <;> simp [Memory.read, Memory.lookup_insert _ _ _ _ hnone, herase, hb]

/-- A write at `a`, read at `a` and elsewhere, on the state. -/
theorem State.store_cell (s : State) (a b : Nat) (v : Word) :
    (s.store a v).cell b = if b = a then v else s.cell b :=
  Memory.read_write s.cfg.program s.tape a b v

@[simp] theorem State.store_cell_same (s : State) (a : Nat) (v : Word) : (s.store a v).cell a = v := by
  simp [State.store_cell]

theorem State.store_cell_other (s : State) (v : Word) {a b : Nat} (h : b ≠ a) :
    (s.store a v).cell b = s.cell b := by
  simp [State.store_cell, h]

/-! ### The canonical form -/

theorem Memory.mem_erase {m : Memory} {a : Nat} {c : Nat × Word} :
    c ∈ Memory.erase m a ↔ c ∈ m ∧ c.1 ≠ a := by
  induction m with
  | nil => simp [Memory.erase]
  | cons d m ih =>
    obtain ⟨b, v⟩ := d
    by_cases hb : b = a
    · simp only [Memory.erase, hb, if_true, ih, List.mem_cons]
      exact ⟨fun h => ⟨.inr h.1, h.2⟩, fun h => ⟨h.1.resolve_left fun e => h.2 (by rw [e]), h.2⟩⟩
    · simp only [Memory.erase, hb, if_false, List.mem_cons, ih]
      exact ⟨fun h => h.elim (fun e => ⟨.inl e, by rw [e]; exact hb⟩) fun h => ⟨.inr h.1, h.2⟩,
        fun h => h.1.elim .inl fun hm => .inr ⟨hm, h.2⟩⟩

theorem Memory.mem_insert {m : Memory} {a : Nat} {v : Word} {c : Nat × Word} :
    c ∈ Memory.insert m a v ↔ c = (a, v) ∨ c ∈ m := by
  induction m with
  | nil => simp [Memory.insert]
  | cons d m ih =>
    obtain ⟨b, u⟩ := d
    by_cases hlt : a < b
    · simp [Memory.insert, hlt]
    · simp only [Memory.insert, hlt, if_false, List.mem_cons, ih]
      tauto

/-- What a write leaves listed: the old entries elsewhere, and its own unless it wrote the baseline value. -/
theorem Memory.mem_write {p : List Word} {m : Memory} {a : Nat} {v : Word} {c : Nat × Word} :
    c ∈ Memory.write p m a v ↔ (c ∈ m ∧ c.1 ≠ a) ∨ (c = (a, v) ∧ v ≠ Memory.base p a) := by
  unfold Memory.write
  split
  · simp [Memory.mem_erase, *]
  · simp only [Memory.mem_insert, Memory.mem_erase, ne_eq, *, not_false_eq_true, and_true]
    tauto

theorem Memory.risesFrom_of_le {m : Memory} {lo hi : Nat} (h : lo ≤ hi) (hm : Memory.risesFrom hi m = true) :
    Memory.risesFrom lo m = true := by
  cases m with
  | nil => rfl
  | cons c m =>
    obtain ⟨b, v⟩ := c
    simp only [Memory.risesFrom, Bool.and_eq_true, decide_eq_true_eq] at hm ⊢
    exact ⟨h.trans hm.1, hm.2⟩

theorem Memory.risesFrom_erase {m : Memory} {lo : Nat} (a : Nat) (hm : Memory.risesFrom lo m = true) :
    Memory.risesFrom lo (Memory.erase m a) = true := by
  induction m generalizing lo with
  | nil => rfl
  | cons c m ih =>
    obtain ⟨b, v⟩ := c
    simp only [Memory.risesFrom, Bool.and_eq_true, decide_eq_true_eq] at hm
    by_cases hb : b = a
    · simp only [Memory.erase, hb, if_true]
      exact Memory.risesFrom_of_le (by omega) (ih hm.2)
    · simp only [Memory.erase, hb, if_false, Memory.risesFrom, Bool.and_eq_true, decide_eq_true_eq]
      exact ⟨hm.1, ih hm.2⟩

theorem Memory.risesFrom_insert {m : Memory} {lo a : Nat} (v : Word) (hlo : lo ≤ a)
    (hm : Memory.risesFrom lo m = true) (hnot : ∀ c ∈ m, c.1 ≠ a) :
    Memory.risesFrom lo (Memory.insert m a v) = true := by
  induction m generalizing lo with
  | nil => simp [Memory.insert, Memory.risesFrom, hlo]
  | cons c m ih =>
    obtain ⟨b, u⟩ := c
    simp only [Memory.risesFrom, Bool.and_eq_true, decide_eq_true_eq] at hm
    have hba : b ≠ a := hnot (b, u) (by simp)
    by_cases hlt : a < b
    · simp only [Memory.insert, hlt, if_true, Memory.risesFrom, Bool.and_eq_true, decide_eq_true_eq]
      exact ⟨hlo, hlt, hm.2⟩
    · simp only [Memory.insert, hlt, if_false, Memory.risesFrom, Bool.and_eq_true, decide_eq_true_eq]
      exact ⟨hm.1, ih (by omega) hm.2 fun c hc => hnot c (by simp [hc])⟩

theorem Memory.wf_iff {p : List Word} {m : Memory} :
    Memory.wf p m = true ↔ Memory.risesFrom 0 m = true ∧ ∀ c ∈ m, c.2 ≠ Memory.base p c.1 := by
  simp only [Memory.wf, Bool.and_eq_true, List.all_eq_true, decide_eq_true_eq]

/-- The empty tape is canonical: the tape at reset is. -/
theorem Memory.wf_nil (p : List Word) : Memory.wf p [] = true := rfl

theorem Memory.wf_erase {p : List Word} {m : Memory} (a : Nat) (hm : Memory.wf p m = true) :
    Memory.wf p (Memory.erase m a) = true := by
  rw [Memory.wf_iff] at hm ⊢
  exact ⟨Memory.risesFrom_erase a hm.1, fun c hc => hm.2 c (Memory.mem_erase.1 hc).1⟩

/-- Every write keeps the canonical form. -/
theorem Memory.wf_write {p : List Word} {m : Memory} (a : Nat) (v : Word) (hm : Memory.wf p m = true) :
    Memory.wf p (Memory.write p m a v) = true := by
  have he := Memory.wf_erase a hm
  unfold Memory.write
  split
  · exact he
  · rename_i hv
    rw [Memory.wf_iff] at he ⊢
    refine ⟨Memory.risesFrom_insert v (Nat.zero_le a) he.1 fun c hc => (Memory.mem_erase.1 hc).2, fun c hc => ?_⟩
    rcases Memory.mem_insert.1 hc with rfl | hc
    · exact hv
    · exact he.2 c hc

theorem State.reset_tape_wf : Memory.wf State.reset.cfg.program State.reset.tape = true := rfl

/-- Laying cells keeps the canonical form. -/
theorem State.layCells_wf (s : State) (a : Int) (ws : List Word) (h : Memory.wf s.cfg.program s.tape = true) :
    Memory.wf (s.layCells a ws).cfg.program (s.layCells a ws).tape = true := by
  induction ws generalizing s a with
  | nil => exact h
  | cons w ws ih =>
    refine ih _ _ ?_
    split
    · exact h
    · exact Memory.wf_write _ _ h

/-! ### The set of written addresses -/

theorem mem_insertAddress {l : List Nat} {a b : Nat} : b ∈ insertAddress l a ↔ b = a ∨ b ∈ l := by
  induction l with
  | nil => simp [insertAddress]
  | cons c l ih =>
    unfold insertAddress
    split
    · simp
    · split
      · rename_i h; subst h; simp
      · simp only [List.mem_cons, ih]; tauto

theorem addressesRiseFrom_insertAddress {l : List Nat} {lo a : Nat} (hlo : lo ≤ a)
    (h : addressesRiseFrom lo l = true) : addressesRiseFrom lo (insertAddress l a) = true := by
  induction l generalizing lo with
  | nil => simp [insertAddress, addressesRiseFrom, hlo]
  | cons b l ih =>
    simp only [addressesRiseFrom, Bool.and_eq_true, decide_eq_true_eq] at h
    unfold insertAddress
    split
    · simp only [addressesRiseFrom, Bool.and_eq_true, decide_eq_true_eq]
      exact ⟨hlo, by omega, h.2⟩
    · split
      · simp only [addressesRiseFrom, Bool.and_eq_true, decide_eq_true_eq]
        exact h
      · simp only [addressesRiseFrom, Bool.and_eq_true, decide_eq_true_eq]
        exact ⟨h.1, ih (by omega) h.2⟩

theorem le_of_mem_addressesRiseFrom {l : List Nat} {lo a : Nat} (h : addressesRiseFrom lo l = true) (ha : a ∈ l) :
    lo ≤ a := by
  induction l generalizing lo with
  | nil => cases ha
  | cons b l ih =>
    simp only [addressesRiseFrom, Bool.and_eq_true, decide_eq_true_eq] at h
    rcases List.mem_cons.1 ha with rfl | ha
    · exact h.1
    · have := ih h.2 ha; omega

/-- An address that is in the set already leaves it as it is. -/
theorem insertAddress_of_mem {l : List Nat} {lo a : Nat} (h : addressesRiseFrom lo l = true) (ha : a ∈ l) :
    insertAddress l a = l := by
  induction l generalizing lo with
  | nil => cases ha
  | cons b l ih =>
    simp only [addressesRiseFrom, Bool.and_eq_true, decide_eq_true_eq] at h
    rcases List.mem_cons.1 ha with rfl | ha
    · simp [insertAddress]
    · have := le_of_mem_addressesRiseFrom h.2 ha
      have hlt : ¬ a < b := by omega
      have hne : ¬ a = b := by omega
      simp [insertAddress, hlt, hne, ih h.2 ha]

theorem length_insertAddress_le (l : List Nat) (a : Nat) : (insertAddress l a).length ≤ l.length + 1 := by
  induction l with
  | nil => simp [insertAddress]
  | cons b l ih =>
    unfold insertAddress
    split
    · simp
    · split
      · simp
      · simp only [List.length_cons]; omega

/-- What a write adds to `W` (R70): its address, if that lies at or beyond the image. -/
theorem State.mem_writtenWith {s : State} {a b : Nat} :
    b ∈ s.writtenWith a ↔ (b = a ∧ s.cfg.program.length ≤ a) ∨ b ∈ s.written := by
  unfold State.writtenWith
  split <;> rename_i h <;> simp [mem_insertAddress, h]

end Sys2Proof.Machine
end

