-- ==== Sys2Proof/Laws/State.lean ====
section
/-! SUPPORT. What each named update leaves in each field of the state: one lemma per field per update, so that no proof
unfolds a record update. -/

namespace Sys2Proof.Machine

variable (s : State)

@[simp] theorem State.setIp_cfg (v : Int) : (s.setIp v).cfg = s.cfg := rfl
@[simp] theorem State.setIp_tape (v : Int) : (s.setIp v).tape = s.tape := rfl
@[simp] theorem State.setIp_written (v : Int) : (s.setIp v).written = s.written := rfl
@[simp] theorem State.setIp_ip (v : Int) : (s.setIp v).ip = v := rfl
@[simp] theorem State.setIp_rb (v : Int) : (s.setIp v).rb = s.rb := rfl
@[simp] theorem State.setIp_active (v : Int) : (s.setIp v).active = s.active := rfl
@[simp] theorem State.setIp_running (v : Int) : (s.setIp v).running = s.running := rfl
@[simp] theorem State.setIp_inputs (v : Int) : (s.setIp v).inputs = s.inputs := rfl
@[simp] theorem State.setIp_inIdx (v : Int) : (s.setIp v).inIdx = s.inIdx := rfl
@[simp] theorem State.setIp_fault (v : Int) : (s.setIp v).fault = s.fault := rfl
@[simp] theorem State.setIp_last (v : Int) : (s.setIp v).last = s.last := rfl
@[simp] theorem State.setIp_out (v : Int) : (s.setIp v).out = s.out := rfl
@[simp] theorem State.setIp_resp (v : Int) : (s.setIp v).resp = s.resp := rfl
@[simp] theorem State.setIp_pending (v : Int) : (s.setIp v).pending = s.pending := rfl
@[simp] theorem State.setIp_draws (v : Int) : (s.setIp v).draws = s.draws := rfl

@[simp] theorem State.setRb_cfg (v : Word) : (s.setRb v).cfg = s.cfg := rfl
@[simp] theorem State.setRb_tape (v : Word) : (s.setRb v).tape = s.tape := rfl
@[simp] theorem State.setRb_written (v : Word) : (s.setRb v).written = s.written := rfl
@[simp] theorem State.setRb_ip (v : Word) : (s.setRb v).ip = s.ip := rfl
@[simp] theorem State.setRb_rb (v : Word) : (s.setRb v).rb = v := rfl
@[simp] theorem State.setRb_active (v : Word) : (s.setRb v).active = s.active := rfl
@[simp] theorem State.setRb_running (v : Word) : (s.setRb v).running = s.running := rfl
@[simp] theorem State.setRb_inputs (v : Word) : (s.setRb v).inputs = s.inputs := rfl
@[simp] theorem State.setRb_inIdx (v : Word) : (s.setRb v).inIdx = s.inIdx := rfl
@[simp] theorem State.setRb_fault (v : Word) : (s.setRb v).fault = s.fault := rfl
@[simp] theorem State.setRb_last (v : Word) : (s.setRb v).last = s.last := rfl
@[simp] theorem State.setRb_out (v : Word) : (s.setRb v).out = s.out := rfl
@[simp] theorem State.setRb_resp (v : Word) : (s.setRb v).resp = s.resp := rfl
@[simp] theorem State.setRb_pending (v : Word) : (s.setRb v).pending = s.pending := rfl
@[simp] theorem State.setRb_draws (v : Word) : (s.setRb v).draws = s.draws := rfl

@[simp] theorem State.setInIdx_cfg (n : Nat) : (s.setInIdx n).cfg = s.cfg := rfl
@[simp] theorem State.setInIdx_tape (n : Nat) : (s.setInIdx n).tape = s.tape := rfl
@[simp] theorem State.setInIdx_written (n : Nat) : (s.setInIdx n).written = s.written := rfl
@[simp] theorem State.setInIdx_ip (n : Nat) : (s.setInIdx n).ip = s.ip := rfl
@[simp] theorem State.setInIdx_rb (n : Nat) : (s.setInIdx n).rb = s.rb := rfl
@[simp] theorem State.setInIdx_active (n : Nat) : (s.setInIdx n).active = s.active := rfl
@[simp] theorem State.setInIdx_running (n : Nat) : (s.setInIdx n).running = s.running := rfl
@[simp] theorem State.setInIdx_inputs (n : Nat) : (s.setInIdx n).inputs = s.inputs := rfl
@[simp] theorem State.setInIdx_inIdx (n : Nat) : (s.setInIdx n).inIdx = n := rfl
@[simp] theorem State.setInIdx_fault (n : Nat) : (s.setInIdx n).fault = s.fault := rfl
@[simp] theorem State.setInIdx_last (n : Nat) : (s.setInIdx n).last = s.last := rfl
@[simp] theorem State.setInIdx_out (n : Nat) : (s.setInIdx n).out = s.out := rfl
@[simp] theorem State.setInIdx_resp (n : Nat) : (s.setInIdx n).resp = s.resp := rfl
@[simp] theorem State.setInIdx_pending (n : Nat) : (s.setInIdx n).pending = s.pending := rfl
@[simp] theorem State.setInIdx_draws (n : Nat) : (s.setInIdx n).draws = s.draws := rfl

@[simp] theorem State.store_cfg (a : Nat) (v : Word) : (s.store a v).cfg = s.cfg := rfl
@[simp] theorem State.store_tape (a : Nat) (v : Word) : (s.store a v).tape = Memory.write s.cfg.program s.tape a v := rfl
@[simp] theorem State.store_written (a : Nat) (v : Word) : (s.store a v).written = s.writtenWith a := rfl
@[simp] theorem State.store_ip (a : Nat) (v : Word) : (s.store a v).ip = s.ip := rfl
@[simp] theorem State.store_rb (a : Nat) (v : Word) : (s.store a v).rb = s.rb := rfl
@[simp] theorem State.store_active (a : Nat) (v : Word) : (s.store a v).active = s.active := rfl
@[simp] theorem State.store_running (a : Nat) (v : Word) : (s.store a v).running = s.running := rfl
@[simp] theorem State.store_inputs (a : Nat) (v : Word) : (s.store a v).inputs = s.inputs := rfl
@[simp] theorem State.store_inIdx (a : Nat) (v : Word) : (s.store a v).inIdx = s.inIdx := rfl
@[simp] theorem State.store_fault (a : Nat) (v : Word) : (s.store a v).fault = s.fault := rfl
@[simp] theorem State.store_last (a : Nat) (v : Word) : (s.store a v).last = s.last := rfl
@[simp] theorem State.store_out (a : Nat) (v : Word) : (s.store a v).out = s.out := rfl
@[simp] theorem State.store_resp (a : Nat) (v : Word) : (s.store a v).resp = s.resp := rfl
@[simp] theorem State.store_pending (a : Nat) (v : Word) : (s.store a v).pending = s.pending := rfl
@[simp] theorem State.store_draws (a : Nat) (v : Word) : (s.store a v).draws = s.draws := rfl

@[simp] theorem State.raise_cfg (k : FaultKind) : (s.raise k).cfg = s.cfg := rfl
@[simp] theorem State.raise_tape (k : FaultKind) : (s.raise k).tape = s.tape := rfl
@[simp] theorem State.raise_written (k : FaultKind) : (s.raise k).written = s.written := rfl
@[simp] theorem State.raise_ip (k : FaultKind) : (s.raise k).ip = Config.freeIp s.draws := rfl
@[simp] theorem State.raise_rb (k : FaultKind) : (s.raise k).rb = s.rb := rfl
@[simp] theorem State.raise_active (k : FaultKind) : (s.raise k).active = false := rfl
@[simp] theorem State.raise_running (k : FaultKind) : (s.raise k).running = false := rfl
@[simp] theorem State.raise_inputs (k : FaultKind) : (s.raise k).inputs = [] := rfl
@[simp] theorem State.raise_inIdx (k : FaultKind) : (s.raise k).inIdx = s.inIdx := rfl
@[simp] theorem State.raise_fault (k : FaultKind) : (s.raise k).fault = some k := rfl
@[simp] theorem State.raise_last (k : FaultKind) : (s.raise k).last = .failed := rfl
@[simp] theorem State.raise_out (k : FaultKind) : (s.raise k).out = s.out := rfl
@[simp] theorem State.raise_resp (k : FaultKind) : (s.raise k).resp = some (.failed k) := rfl
@[simp] theorem State.raise_pending (k : FaultKind) : (s.raise k).pending = s.pending := rfl
@[simp] theorem State.raise_draws (k : FaultKind) : (s.raise k).draws = s.draws + 1 := rfl

@[simp] theorem State.returnOutput_cfg (v : Word) : (s.returnOutput v).cfg = s.cfg := rfl
@[simp] theorem State.returnOutput_tape (v : Word) : (s.returnOutput v).tape = s.tape := rfl
@[simp] theorem State.returnOutput_written (v : Word) : (s.returnOutput v).written = s.written := rfl
@[simp] theorem State.returnOutput_ip (v : Word) : (s.returnOutput v).ip = s.ip := rfl
@[simp] theorem State.returnOutput_rb (v : Word) : (s.returnOutput v).rb = s.rb := rfl
@[simp] theorem State.returnOutput_active (v : Word) : (s.returnOutput v).active = s.active := rfl
@[simp] theorem State.returnOutput_running (v : Word) : (s.returnOutput v).running = false := rfl
@[simp] theorem State.returnOutput_inputs (v : Word) : (s.returnOutput v).inputs = [] := rfl
@[simp] theorem State.returnOutput_inIdx (v : Word) : (s.returnOutput v).inIdx = s.inIdx := rfl
@[simp] theorem State.returnOutput_fault (v : Word) : (s.returnOutput v).fault = none := rfl
@[simp] theorem State.returnOutput_last (v : Word) : (s.returnOutput v).last = .output := rfl
@[simp] theorem State.returnOutput_out (v : Word) : (s.returnOutput v).out = v := rfl
@[simp] theorem State.returnOutput_resp (v : Word) : (s.returnOutput v).resp = some (.output v) := rfl
@[simp] theorem State.returnOutput_pending (v : Word) : (s.returnOutput v).pending = s.pending := rfl
@[simp] theorem State.returnOutput_draws (v : Word) : (s.returnOutput v).draws = s.draws := rfl

@[simp] theorem State.returnHalted_cfg : s.returnHalted.cfg = s.cfg := rfl
@[simp] theorem State.returnHalted_tape : s.returnHalted.tape = s.tape := rfl
@[simp] theorem State.returnHalted_written : s.returnHalted.written = s.written := rfl
@[simp] theorem State.returnHalted_ip : s.returnHalted.ip = s.ip := rfl
@[simp] theorem State.returnHalted_rb : s.returnHalted.rb = s.rb := rfl
@[simp] theorem State.returnHalted_active : s.returnHalted.active = false := rfl
@[simp] theorem State.returnHalted_running : s.returnHalted.running = false := rfl
@[simp] theorem State.returnHalted_inputs : s.returnHalted.inputs = [] := rfl
@[simp] theorem State.returnHalted_inIdx : s.returnHalted.inIdx = s.inIdx := rfl
@[simp] theorem State.returnHalted_fault : s.returnHalted.fault = none := rfl
@[simp] theorem State.returnHalted_last : s.returnHalted.last = .halted := rfl
@[simp] theorem State.returnHalted_out : s.returnHalted.out = 0 := rfl
@[simp] theorem State.returnHalted_resp : s.returnHalted.resp = some .halted := rfl
@[simp] theorem State.returnHalted_pending : s.returnHalted.pending = s.pending := rfl
@[simp] theorem State.returnHalted_draws : s.returnHalted.draws = s.draws := rfl

@[simp] theorem State.doReset_cfg : s.doReset.cfg = s.cfg := rfl
@[simp] theorem State.doReset_tape : s.doReset.tape = [] := rfl
@[simp] theorem State.doReset_written : s.doReset.written = [] := rfl
@[simp] theorem State.doReset_ip : s.doReset.ip = 0 := rfl
@[simp] theorem State.doReset_rb : s.doReset.rb = 0 := rfl
@[simp] theorem State.doReset_active : s.doReset.active = true := rfl
@[simp] theorem State.doReset_running : s.doReset.running = false := rfl
@[simp] theorem State.doReset_inputs : s.doReset.inputs = [] := rfl
@[simp] theorem State.doReset_inIdx : s.doReset.inIdx = 0 := rfl
@[simp] theorem State.doReset_fault : s.doReset.fault = none := rfl
@[simp] theorem State.doReset_last : s.doReset.last = .none := rfl
@[simp] theorem State.doReset_out : s.doReset.out = 0 := rfl
@[simp] theorem State.doReset_resp : s.doReset.resp = some .done := rfl
@[simp] theorem State.doReset_pending : s.doReset.pending = s.pending := rfl
@[simp] theorem State.doReset_draws : s.doReset.draws = s.draws := rfl

@[simp] theorem State.doStop_cfg : s.doStop.cfg = s.cfg := rfl
@[simp] theorem State.doStop_tape : s.doStop.tape = s.tape := rfl
@[simp] theorem State.doStop_written : s.doStop.written = s.written := rfl
@[simp] theorem State.doStop_ip : s.doStop.ip = s.ip := rfl
@[simp] theorem State.doStop_rb : s.doStop.rb = s.rb := rfl
@[simp] theorem State.doStop_active : s.doStop.active = false := rfl
@[simp] theorem State.doStop_running : s.doStop.running = s.running := rfl
@[simp] theorem State.doStop_inputs : s.doStop.inputs = s.inputs := rfl
@[simp] theorem State.doStop_inIdx : s.doStop.inIdx = s.inIdx := rfl
@[simp] theorem State.doStop_fault : s.doStop.fault = s.fault := rfl
@[simp] theorem State.doStop_last : s.doStop.last = s.last := rfl
@[simp] theorem State.doStop_out : s.doStop.out = s.out := rfl
@[simp] theorem State.doStop_resp : s.doStop.resp = some .done := rfl
@[simp] theorem State.doStop_pending : s.doStop.pending = s.pending := rfl
@[simp] theorem State.doStop_draws : s.doStop.draws = s.draws := rfl

@[simp] theorem State.failNotActive_cfg : s.failNotActive.cfg = s.cfg := rfl
@[simp] theorem State.failNotActive_tape : s.failNotActive.tape = s.tape := rfl
@[simp] theorem State.failNotActive_written : s.failNotActive.written = s.written := rfl
@[simp] theorem State.failNotActive_ip : s.failNotActive.ip = s.ip := rfl
@[simp] theorem State.failNotActive_rb : s.failNotActive.rb = s.rb := rfl
@[simp] theorem State.failNotActive_active : s.failNotActive.active = s.active := rfl
@[simp] theorem State.failNotActive_running : s.failNotActive.running = s.running := rfl
@[simp] theorem State.failNotActive_inputs : s.failNotActive.inputs = s.inputs := rfl
@[simp] theorem State.failNotActive_inIdx : s.failNotActive.inIdx = s.inIdx := rfl
@[simp] theorem State.failNotActive_fault : s.failNotActive.fault = s.fault := rfl
@[simp] theorem State.failNotActive_last : s.failNotActive.last = s.last := rfl
@[simp] theorem State.failNotActive_out : s.failNotActive.out = s.out := rfl
@[simp] theorem State.failNotActive_resp : s.failNotActive.resp = some (.failed .notActive) := rfl
@[simp] theorem State.failNotActive_pending : s.failNotActive.pending = s.pending := rfl
@[simp] theorem State.failNotActive_draws : s.failNotActive.draws = s.draws := rfl

@[simp] theorem State.startRun_cfg (l : List Word) : (s.startRun l).cfg = s.cfg := rfl
@[simp] theorem State.startRun_tape (l : List Word) : (s.startRun l).tape = s.tape := rfl
@[simp] theorem State.startRun_written (l : List Word) : (s.startRun l).written = s.written := rfl
@[simp] theorem State.startRun_ip (l : List Word) : (s.startRun l).ip = s.ip := rfl
@[simp] theorem State.startRun_rb (l : List Word) : (s.startRun l).rb = s.rb := rfl
@[simp] theorem State.startRun_active (l : List Word) : (s.startRun l).active = s.active := rfl
@[simp] theorem State.startRun_running (l : List Word) : (s.startRun l).running = true := rfl
@[simp] theorem State.startRun_inputs (l : List Word) : (s.startRun l).inputs = l := rfl
@[simp] theorem State.startRun_inIdx (l : List Word) : (s.startRun l).inIdx = 0 := rfl
@[simp] theorem State.startRun_fault (l : List Word) : (s.startRun l).fault = s.fault := rfl
@[simp] theorem State.startRun_last (l : List Word) : (s.startRun l).last = s.last := rfl
@[simp] theorem State.startRun_out (l : List Word) : (s.startRun l).out = s.out := rfl
@[simp] theorem State.startRun_resp (l : List Word) : (s.startRun l).resp = none := rfl
@[simp] theorem State.startRun_pending (l : List Word) : (s.startRun l).pending = s.pending := rfl
@[simp] theorem State.startRun_draws (l : List Word) : (s.startRun l).draws = s.draws := rfl

/-! ### Cells read through the updates that leave the tape alone -/

@[simp] theorem State.setIp_cell (v : Int) (b : Nat) : (s.setIp v).cell b = s.cell b := rfl
@[simp] theorem State.setRb_cell (v : Word) (b : Nat) : (s.setRb v).cell b = s.cell b := rfl
@[simp] theorem State.setInIdx_cell (n : Nat) (b : Nat) : (s.setInIdx n).cell b = s.cell b := rfl
@[simp] theorem State.raise_cell (k : FaultKind) (b : Nat) : (s.raise k).cell b = s.cell b := rfl
@[simp] theorem State.returnOutput_cell (v : Word) (b : Nat) : (s.returnOutput v).cell b = s.cell b := rfl
@[simp] theorem State.returnHalted_cell (b : Nat) : s.returnHalted.cell b = s.cell b := rfl
@[simp] theorem State.doStop_cell (b : Nat) : s.doStop.cell b = s.cell b := rfl
@[simp] theorem State.failNotActive_cell (b : Nat) : s.failNotActive.cell b = s.cell b := rfl
@[simp] theorem State.startRun_cell (l : List Word) (b : Nat) : (s.startRun l).cell b = s.cell b := rfl

/-! ### Updates that meet -/

@[simp] theorem State.setIp_setIp (v w : Int) : (s.setIp v).setIp w = s.setIp w := rfl
@[simp] theorem State.setIp_raise (v : Int) (k : FaultKind) : (s.setIp v).raise k = s.raise k := rfl
@[simp] theorem State.setIp_self : s.setIp s.ip = s := rfl

end Sys2Proof.Machine
end

