-- ==== Sys2Proof/Laws/Operands.lean ====
section
/-! SUPPORT. Each operand operation said once in the terms of Safety: the checks, the slots, `ReadParam` and
`WriteParam` (spec/20_memory.md R52 to R55, spec/40_execute_cycle.md R114 to R119). -/

namespace Sys2Proof.Machine

/-! ### Address checks -/

@[simp] theorem State.validAddress_setIp (s : State) (v a : Int) :
    (s.setIp v).ValidAddress a ↔ s.ValidAddress a := Iff.rfl

theorem checkAddr_of_valid {s : State} {a : Int} (h : s.ValidAddress a) : checkAddr s.cfg a = .ok a.toNat := by
  have h0 : ¬ a < 0 := not_lt.2 h.1
  unfold checkAddr
  cases hl : s.cfg.addrLimit with
  | none => simp [h0]
  | some limit => simp [h0, not_le.2 (h.2 limit hl)]

theorem checkAddr_of_invalid {s : State} {a : Int} (h : ¬ s.ValidAddress a) :
    checkAddr s.cfg a = .error .invalidAddress := by
  unfold checkAddr
  by_cases h0 : a < 0
  · simp [h0]
  · cases hl : s.cfg.addrLimit with
    | none => exact absurd ⟨not_lt.1 h0, by simp [hl]⟩ h
    | some limit =>
      have hle : (limit : Int) ≤ a := by
        by_contra hlt
        exact h ⟨not_lt.1 h0, fun l hl' => by rw [hl] at hl'; cases hl'; omega⟩
      simp [h0, hle]

theorem memRead_of_valid {s : State} {a : Int} (h : s.ValidAddress a) : memRead s a = .ok (s.cell a.toNat) := by
  simp [memRead, checkAddr_of_valid h]

theorem memRead_of_invalid {s : State} {a : Int} (h : ¬ s.ValidAddress a) :
    memRead s a = .error .invalidAddress := by
  simp [memRead, checkAddr_of_invalid h]

theorem memWrite_of_invalid {s : State} {a : Int} (v : Word) (h : ¬ s.ValidAddress a) :
    memWrite s a v = .error .invalidAddress := by
  simp [memWrite, checkAddr_of_invalid h]

theorem memWrite_of_valid {s : State} {a : Int} (v : Word) (h : s.ValidAddress a) :
    memWrite s a v =
      if s.capacityExceededAt a.toNat then .error .capacityExceeded else .ok (s.store a.toNat v) := by
  simp [memWrite, checkAddr_of_valid h]

/-- Everything a write can do: nothing but store one cell at a valid address. -/
theorem memWrite_ok {s t : State} {a : Int} {v : Word} (h : memWrite s a v = .ok t) :
    s.ValidAddress a ∧ s.capacityExceededAt a.toNat = false ∧ t = s.store a.toNat v := by
  by_cases hv : s.ValidAddress a
  · rw [memWrite_of_valid v hv] at h
    split at h
    · cases h
    · rename_i hc
      exact ⟨hv, by simpa using hc, by cases h; rfl⟩
  · rw [memWrite_of_invalid v hv] at h
    cases h

/-! ### Parameter slots -/

/-- The state whose `IP` is at parameter slot `k` of the instruction that starts executing at `s`. -/
def State.atSlot (s : State) (k : Nat) : State :=
  s.setIp (s.ip + k)

@[simp] theorem State.atSlot_zero (s : State) : s.atSlot 0 = s := by
  simp [State.atSlot]

@[simp] theorem State.atSlot_raise (s : State) (n : Nat) (k : FaultKind) : (s.atSlot n).raise k = s.raise k := rfl

@[simp] theorem State.atSlot_cfg (s : State) (k : Nat) : (s.atSlot k).cfg = s.cfg := rfl

@[simp] theorem State.atSlot_rb (s : State) (k : Nat) : (s.atSlot k).rb = s.rb := rfl

theorem slot_of_valid {s : State} {k : Nat} (h : s.ValidAddress (s.ip + k)) :
    slot (s.atSlot k) = .ok (s.literal k, s.atSlot (k + 1)) := by
  have hr : memRead (s.atSlot k) (s.ip + k) = .ok (s.literal k) := memRead_of_valid (s := s.atSlot k) h
  simp [slot, State.atSlot] at hr ⊢
  simp [hr, add_assoc]

theorem slot_of_invalid {s : State} {k : Nat} (h : ¬ s.ValidAddress (s.ip + k)) :
    slot (s.atSlot k) = .error .invalidAddress := by
  have hr : memRead (s.atSlot k) (s.ip + k) = .error .invalidAddress := memRead_of_invalid (s := s.atSlot k) h
  simp [slot, State.atSlot] at hr ⊢
  simp [hr]

/-! ### ReadParam -/

theorem readParam_gives {s : State} {k : Nat} {m : Mode} {v : Word} (h : s.SourceGives k m v) :
    readParam m (s.atSlot k) = .ok (v, s.atSlot (k + 1)) := by
  obtain ⟨hslot, ⟨rfl, rfl⟩ | ⟨a, ha, hv, rfl⟩⟩ := h
  · simp [readParam, slot_of_valid hslot, decodeSource]
  · have hr : memRead (s.atSlot (k + 1)) a = .ok (s.cell a.toNat) := memRead_of_valid (s := s.atSlot (k + 1)) hv
    cases m <;> simp only [State.effectiveAddress, Option.some.injEq, reduceCtorEq] at ha
    all_goals subst ha; simp [readParam, slot_of_valid hslot, decodeSource, hr]

theorem readParam_faults {s : State} {k : Nat} {m : Mode} {f : FaultKind} (h : s.SourceFaults k m f) :
    readParam m (s.atSlot k) = .error f := by
  obtain ⟨hslot, rfl⟩ | ⟨hslot, ⟨⟨d, rfl⟩, rfl⟩ | ⟨a, ha, hv, rfl⟩⟩ := h
  · simp [readParam, slot_of_invalid hslot]
  · simp [readParam, slot_of_valid hslot, decodeSource]
  · have hr : memRead (s.atSlot (k + 1)) a = .error .invalidAddress :=
      memRead_of_invalid (s := s.atSlot (k + 1)) hv
    cases m <;> simp only [State.effectiveAddress, Option.some.injEq, reduceCtorEq] at ha
    all_goals subst ha; simp [readParam, slot_of_valid hslot, decodeSource, hr]

/-- The only faults of a source parameter. -/
theorem State.SourceFaults.kind {s : State} {k : Nat} {m : Mode} {f : FaultKind} (h : s.SourceFaults k m f) :
    f = .invalidAddress ∨ (f = .unknownAddressingMode ∧ ∃ d, m = .noMode d) := by
  obtain ⟨-, rfl⟩ | ⟨-, ⟨hd, rfl⟩ | ⟨a, -, -, rfl⟩⟩ := h
  · exact .inl rfl
  · exact .inr ⟨rfl, hd⟩
  · exact .inl rfl

/-- A source parameter has a value or raises a fault. -/
theorem State.sourceGives_or_faults (s : State) (k : Nat) (m : Mode) :
    (∃ v, s.SourceGives k m v) ∨ ∃ f, s.SourceFaults k m f := by
  by_cases hslot : s.ValidAddress (s.ip + k)
  · have indirect : ∀ a, s.effectiveAddress k m = some a →
        (∃ v, s.SourceGives k m v) ∨ ∃ f, s.SourceFaults k m f := fun a ha => by
      by_cases hv : s.ValidAddress a
      · exact .inl ⟨_, hslot, .inr ⟨a, ha, hv, rfl⟩⟩
      · exact .inr ⟨_, .inr ⟨hslot, .inr ⟨a, ha, hv, rfl⟩⟩⟩
    cases m with
    | position => exact indirect _ rfl
    | relative => exact indirect _ rfl
    | immediate => exact .inl ⟨_, hslot, .inl ⟨rfl, rfl⟩⟩
    | noMode d => exact .inr ⟨_, .inr ⟨hslot, .inl ⟨⟨d, rfl⟩, rfl⟩⟩⟩
  · exact .inr ⟨_, .inl ⟨hslot, rfl⟩⟩

/-- Everything `withSource` can do: the parameter's fault, or the rest with the parameter's value. -/
theorem withSource_cases (s : State) (k : Nat) (m : Mode) (rest : Word → State → Answer) :
    (∃ f, s.SourceFaults k m f ∧ withSource m (s.atSlot k) rest = .next (s.raise f)) ∨
      ∃ v, s.SourceGives k m v ∧ withSource m (s.atSlot k) rest = rest v (s.atSlot (k + 1)) := by
  rcases s.sourceGives_or_faults k m with ⟨v, hv⟩ | ⟨f, hf⟩
  · exact .inr ⟨v, hv, by simp [withSource, readParam_gives hv]⟩
  · exact .inl ⟨f, hf, by simp [withSource, readParam_faults hf]⟩

theorem withSource_gives {s : State} {k : Nat} {m : Mode} {v : Word} (h : s.SourceGives k m v)
    (rest : Word → State → Answer) : withSource m (s.atSlot k) rest = rest v (s.atSlot (k + 1)) := by
  simp [withSource, readParam_gives h]

theorem withSource_faults {s : State} {k : Nat} {m : Mode} {f : FaultKind} (h : s.SourceFaults k m f)
    (rest : Word → State → Answer) : withSource m (s.atSlot k) rest = .next (s.raise f) := by
  simp [withSource, readParam_faults h]

/-! ### WriteParam -/

theorem writeParam_of_destinationIs {s : State} {k a : Nat} {m : Mode} (v : Word) (h : s.DestinationIs k m a) :
    writeParam m v (s.atSlot k) = .ok ((s.store a v).atSlot (k + 1)) := by
  obtain ⟨hslot, ha, hv, hcap⟩ := h
  have hw : memWrite (s.atSlot (k + 1)) (a : Int) v = .ok ((s.store a v).atSlot (k + 1)) := by
    rw [memWrite_of_valid (s := s.atSlot (k + 1)) v hv, Int.toNat_natCast]
    exact if_neg (by rw [show (s.atSlot (k + 1)).capacityExceededAt a = false from hcap]; decide)
  cases m <;> simp only [State.effectiveAddress, Option.some.injEq, reduceCtorEq] at ha
  all_goals simp [writeParam, slot_of_valid hslot, decodeDestination, ha, hw]

theorem writeParam_faults {s : State} {k : Nat} {m : Mode} {f : FaultKind} (v : Word)
    (h : s.DestinationFaults k m f) : writeParam m v (s.atSlot k) = .error f := by
  obtain ⟨hslot, rfl⟩ | ⟨hslot, ⟨rfl, rfl⟩ | ⟨⟨d, rfl⟩, rfl⟩ | ⟨a, ha, hrest⟩⟩ := h
  · simp [writeParam, slot_of_invalid hslot]
  · simp [writeParam, slot_of_valid hslot, decodeDestination]
  · simp [writeParam, slot_of_valid hslot, decodeDestination]
  · have hw : memWrite (s.atSlot (k + 1)) a v = .error f := by
      obtain ⟨hv, rfl⟩ | ⟨hv, hcap, rfl⟩ := hrest
      · exact memWrite_of_invalid (s := s.atSlot (k + 1)) v hv
      · rw [memWrite_of_valid (s := s.atSlot (k + 1)) v hv]
        exact if_pos hcap
    cases m <;> simp only [State.effectiveAddress, Option.some.injEq, reduceCtorEq] at ha
    all_goals subst ha; simp [writeParam, slot_of_valid hslot, decodeDestination, hw]

/-- The only faults of a destination parameter. -/
theorem State.DestinationFaults.kind {s : State} {k : Nat} {m : Mode} {f : FaultKind}
    (h : s.DestinationFaults k m f) :
    f = .invalidAddress ∨ f = .capacityExceeded ∨ (f = .invalidWriteMode ∧ m = .immediate) ∨
      (f = .unknownAddressingMode ∧ ∃ d, m = .noMode d) := by
  obtain ⟨-, rfl⟩ | ⟨-, ⟨rfl, rfl⟩ | ⟨hd, rfl⟩ | ⟨a, -, ⟨-, rfl⟩ | ⟨-, -, rfl⟩⟩⟩ := h
  · exact .inl rfl
  · exact .inr (.inr (.inl ⟨rfl, rfl⟩))
  · exact .inr (.inr (.inr ⟨rfl, hd⟩))
  · exact .inl rfl
  · exact .inr (.inl rfl)

/-- A destination parameter names a cell that can be written, or raises a fault. -/
theorem State.destinationIs_or_faults (s : State) (k : Nat) (m : Mode) :
    (∃ a, s.DestinationIs k m a) ∨ ∃ f, s.DestinationFaults k m f := by
  by_cases hslot : s.ValidAddress (s.ip + k)
  · have indirect : ∀ a, s.effectiveAddress k m = some a →
        (∃ a, s.DestinationIs k m a) ∨ ∃ f, s.DestinationFaults k m f := fun a ha => by
      by_cases hv : s.ValidAddress a
      · have hcast : ((a.toNat : Nat) : Int) = a := Int.toNat_of_nonneg hv.1
        cases hcap : s.capacityExceededAt a.toNat with
        | false => exact .inl ⟨a.toNat, hslot, by rw [hcast]; exact ha, by rw [hcast]; exact hv, hcap⟩
        | true => exact .inr ⟨_, .inr ⟨hslot, .inr (.inr ⟨a, ha, .inr ⟨hv, hcap, rfl⟩⟩)⟩⟩
      · exact .inr ⟨_, .inr ⟨hslot, .inr (.inr ⟨a, ha, .inl ⟨hv, rfl⟩⟩)⟩⟩
    cases m with
    | position => exact indirect _ rfl
    | relative => exact indirect _ rfl
    | immediate => exact .inr ⟨_, .inr ⟨hslot, .inl ⟨rfl, rfl⟩⟩⟩
    | noMode d => exact .inr ⟨_, .inr ⟨hslot, .inr (.inl ⟨⟨d, rfl⟩, rfl⟩)⟩⟩
  · exact .inr ⟨_, .inl ⟨hslot, rfl⟩⟩

/-- Everything the destination step can do: the parameter's fault, or one cell stored. -/
theorem writeResult_cases (s : State) (k : Nat) (m : Mode) (v : Word) :
    (∃ f, s.DestinationFaults k m f ∧ writeResult m v (s.atSlot k) = .next (s.raise f)) ∨
      ∃ a, s.DestinationIs k m a ∧ writeResult m v (s.atSlot k) = .next ((s.store a v).atSlot (k + 1)) := by
  rcases s.destinationIs_or_faults k m with ⟨a, ha⟩ | ⟨f, hf⟩
  · exact .inr ⟨a, ha, by simp [writeResult, finish, writeParam_of_destinationIs v ha]⟩
  · exact .inl ⟨f, hf, by simp [writeResult, finish, writeParam_faults v hf]⟩

theorem writeResult_of_destinationIs {s : State} {k a : Nat} {m : Mode} (v : Word) (h : s.DestinationIs k m a) :
    writeResult m v (s.atSlot k) = .next ((s.store a v).atSlot (k + 1)) := by
  simp [writeResult, finish, writeParam_of_destinationIs v h]

theorem writeResult_faults {s : State} {k : Nat} {m : Mode} {f : FaultKind} (v : Word)
    (h : s.DestinationFaults k m f) : writeResult m v (s.atSlot k) = .next (s.raise f) := by
  simp [writeResult, finish, writeParam_faults v h]

/-- The address a destination names is the one the address decoder computes from the slot's literal. -/
theorem State.DestinationIs.decodes {s : State} {k a : Nat} {m : Mode} (h : s.DestinationIs k m a) :
    decodeDestination m s.rb (s.literal k) = .ok (a : Int) := by
  obtain ⟨-, ha, -, -⟩ := h
  cases m <;> simp only [State.effectiveAddress, Option.some.injEq, reduceCtorEq] at ha
  all_goals simp [decodeDestination, ha]

/-- The only faults of an instruction's computation, and that none of them is a guard failure. -/
theorem result64_error {cfg : Config} {x : Int} {k : FaultKind} (h : result64 cfg x = .error k) :
    k = .arithmeticOverflow ∧ inInt64 x = false ∧ cfg.overflowPolicy = .fault := by
  unfold result64 at h
  split at h
  · cases h
  · rename_i hx
    split at h
    · rename_i hp
      cases h
      exact ⟨rfl, by simpa using hx, hp⟩
    · cases h

end Sys2Proof.Machine
end

