-- ==== Sys2Proof/Laws/PerInstr.lean ====
section
/-! SUPPORT. A family of lemmas with one member per instruction, about the instruction as syntax: its canonical word
(spec/30_encoding.md R95) is below 100000, its low two digits are the opcode, and it has one mode per parameter. -/

namespace Sys2Proof.Laws.WordFits

/-- The canonical word has five digits, the low two are the opcode, and modes and roles match in number. -/
def Statement (i : Instr) : Prop :=
  i.wordValue < 100000 ∧ i.wordValue % 100 = i.opcode.number ∧ i.modes.length = i.roles.length

theorem digit_le (m : Mode) : m.digit ≤ 9 := by
  cases m with
  | noMode d => have := d.isLt; simp only [Mode.digit]; omega
  | _ => simp [Mode.digit]

theorem opcode_number_lt (op : Opcode) : op.number < 100 := by
  cases op <;> decide

/-- The one arithmetic fact: an opcode below 100 and three digits make a word of five digits. -/
theorem of_digits {i : Instr} (hlen : i.modes.length = i.roles.length) : Statement i := by
  have hop := opcode_number_lt i.opcode
  have h1 := digit_le (i.modes.getD (1 - 1) .position)
  have h2 := digit_le (i.modes.getD (2 - 1) .position)
  have h3 := digit_le (i.modes.getD (3 - 1) .position)
  refine ⟨?_, ?_, hlen⟩ <;> simp only [Instr.wordValue, Instr.modeDigit] <;> omega

theorem add (m1 m2 m3 : Mode) : Statement (.add m1 m2 m3) := of_digits rfl
theorem multiply (m1 m2 m3 : Mode) : Statement (.multiply m1 m2 m3) := of_digits rfl
theorem input (m1 : Mode) : Statement (.input m1) := of_digits rfl
theorem output (m1 : Mode) : Statement (.output m1) := of_digits rfl
theorem jumpIfTrue (m1 m2 : Mode) : Statement (.jumpIfTrue m1 m2) := of_digits rfl
theorem jumpIfFalse (m1 m2 : Mode) : Statement (.jumpIfFalse m1 m2) := of_digits rfl
theorem lessThan (m1 m2 m3 : Mode) : Statement (.lessThan m1 m2 m3) := of_digits rfl
theorem equals (m1 m2 m3 : Mode) : Statement (.equals m1 m2 m3) := of_digits rfl
theorem adjustRelativeBase (m1 : Mode) : Statement (.adjustRelativeBase m1) := of_digits rfl
theorem halt : Statement .halt := of_digits rfl

end Sys2Proof.Laws.WordFits
end

