-- ==== Sys2Proof/Laws/Step.lean ====
section
/-! SUPPORT. What each shape of instruction can do, said once, and from it everything `exec` and `step` can do: the
lemmas every invariant and every whole-machine rule is read off. -/

namespace Sys2Proof.Machine

/-! ### The shapes of the instructions -/

@[simp] theorem withResult_ok (s : State) (v : Word) (rest : Word → Answer) : withResult s (.ok v) rest = rest v := rfl

@[simp] theorem withResult_error (s : State) (k : FaultKind) (rest : Word → Answer) :
    withResult s (.error k) rest = .next (s.raise k) := rfl

/-- An ALU instruction raises a fault of one of its parts, or stores its result at its destination. -/
theorem aluOp_cases (f : Word → Word → Except FaultKind Word) (m1 m2 m3 : Mode) (s : State) :
    (∃ k, (s.SourceFaults 0 m1 k ∨ s.SourceFaults 1 m2 k ∨ (∃ a b, f a b = .error k) ∨ s.DestinationFaults 2 m3 k) ∧
      aluOp f m1 m2 m3 s = .next (s.raise k)) ∨
      ∃ a b r d, s.SourceGives 0 m1 a ∧ s.SourceGives 1 m2 b ∧ f a b = .ok r ∧ s.DestinationIs 2 m3 d ∧
        aluOp f m1 m2 m3 s = .next ((s.store d r).atSlot 3) := by
  unfold aluOp
  rcases withSource_cases s 0 m1 _ with ⟨k, hk, h⟩ | ⟨a, ha, h⟩ <;> rw [State.atSlot_zero] at h <;> rw [h]
  · exact .inl ⟨k, .inl hk, rfl⟩
  · rcases withSource_cases s 1 m2 _ with ⟨k, hk, h⟩ | ⟨b, hb, h⟩ <;> rw [h]
    · exact .inl ⟨k, .inr (.inl hk), rfl⟩
    · cases hf : f a b with
      | error k => exact .inl ⟨k, .inr (.inr (.inl ⟨a, b, hf⟩)), rfl⟩
      | ok r =>
        rcases writeResult_cases s 2 m3 r with ⟨k, hk, h⟩ | ⟨d, hd, h⟩
        · exact .inl ⟨k, .inr (.inr (.inr hk)), by simpa using h⟩
        · exact .inr ⟨a, b, r, d, ha, hb, hf, hd, by simpa using h⟩

/-- An ALU instruction whose operands and destination are good stores its result. -/
theorem aluOp_stores {f : Word → Word → Except FaultKind Word} {m1 m2 m3 : Mode} {s : State} {a b r : Word} {d : Nat}
    (ha : s.SourceGives 0 m1 a) (hb : s.SourceGives 1 m2 b) (hr : f a b = .ok r) (hd : s.DestinationIs 2 m3 d) :
    aluOp f m1 m2 m3 s = .next ((s.store d r).atSlot 3) := by
  have h0 := withSource_gives ha
  rw [State.atSlot_zero] at h0
  rw [aluOp, h0, withSource_gives hb, hr, withResult_ok]
  exact writeResult_of_destinationIs r hd

/-- Which fault an ALU instruction raises: the first one in the order of spec/40_execute_cycle.md R120. -/
theorem aluOp_faults {f : Word → Word → Except FaultKind Word} {m1 m2 m3 : Mode} {s : State} {k : FaultKind}
    (h : s.SourceFaults 0 m1 k ∨
      ∃ a, s.SourceGives 0 m1 a ∧ (s.SourceFaults 1 m2 k ∨
        ∃ b, s.SourceGives 1 m2 b ∧ (f a b = .error k ∨ ∃ r, f a b = .ok r ∧ s.DestinationFaults 2 m3 k))) :
    aluOp f m1 m2 m3 s = .next (s.raise k) := by
  unfold aluOp
  obtain hk | ⟨a, ha, hrest⟩ := h
  · have h0 := withSource_faults hk
    rw [State.atSlot_zero] at h0
    exact h0 _
  · have h0 := withSource_gives ha
    rw [State.atSlot_zero] at h0
    rw [h0]
    obtain hk | ⟨b, hb, hk | ⟨r, hr, hk⟩⟩ := hrest
    · exact withSource_faults hk _
    · rw [withSource_gives hb, hk]
      rfl
    · rw [withSource_gives hb, hr, withResult_ok]
      exact writeResult_faults r hk

/-- A jump raises a fault of an operand, or reads both and goes to its target or on to the next instruction. -/
theorem jumpWhen_cases (taken : Word → Bool) (m1 m2 : Mode) (s : State) :
    (∃ k, (s.SourceFaults 0 m1 k ∨ s.SourceFaults 1 m2 k) ∧ jumpWhen taken m1 m2 s = .next (s.raise k)) ∨
      ∃ c t, s.SourceGives 0 m1 c ∧ s.SourceGives 1 m2 t ∧
        jumpWhen taken m1 m2 s = .next (if taken c then s.setIp t.toInt else s.atSlot 2) := by
  unfold jumpWhen
  rcases withSource_cases s 0 m1 _ with ⟨k, hk, h⟩ | ⟨c, hc, h⟩ <;> rw [State.atSlot_zero] at h <;> rw [h]
  · exact .inl ⟨k, .inl hk, rfl⟩
  · rcases withSource_cases s 1 m2 _ with ⟨k, hk, h⟩ | ⟨t, ht, h⟩ <;> rw [h]
    · exact .inl ⟨k, .inr hk, rfl⟩
    · exact .inr ⟨c, t, hc, ht, rfl⟩

theorem jumpWhen_jumps {taken : Word → Bool} {m1 m2 : Mode} {s : State} {c t : Word} (hc : s.SourceGives 0 m1 c)
    (ht : s.SourceGives 1 m2 t) :
    jumpWhen taken m1 m2 s = .next (if taken c then s.setIp t.toInt else s.atSlot 2) := by
  have h0 := withSource_gives hc
  rw [State.atSlot_zero] at h0
  rw [jumpWhen, h0, withSource_gives ht]
  rfl

/-- input finds no value, or takes one and then raises a destination fault or stores it. -/
theorem execInput_cases (m1 : Mode) (s : State) :
    (s.inputs.length ≤ s.inIdx ∧ execInput m1 s = .next (s.raise .inputExhausted)) ∨
      ∃ v, s.inputs[s.inIdx]? = some v ∧
        ((∃ k, s.DestinationFaults 0 m1 k ∧ execInput m1 s = .next ((s.setInIdx (s.inIdx + 1)).raise k)) ∨
          ∃ d, s.DestinationIs 0 m1 d ∧
            execInput m1 s = .next (((s.store d v).setInIdx (s.inIdx + 1)).atSlot 1)) := by
  unfold execInput
  cases hv : s.inputs[s.inIdx]? with
  | none => exact .inl ⟨List.getElem?_eq_none_iff.1 hv, rfl⟩
  | some v =>
    refine .inr ⟨v, rfl, ?_⟩
    rcases writeResult_cases (s.setInIdx (s.inIdx + 1)) 0 m1 v with ⟨k, hk, h⟩ | ⟨d, hd, h⟩ <;>
      rw [State.atSlot_zero] at h
    · exact .inl ⟨k, hk, h⟩
    · exact .inr ⟨d, hd, h⟩

/-- output raises its operand's fault, or returns the operand. -/
theorem execOutput_cases (m1 : Mode) (s : State) :
    (∃ k, s.SourceFaults 0 m1 k ∧ execOutput m1 s = .next (s.raise k)) ∨
      ∃ a, s.SourceGives 0 m1 a ∧ execOutput m1 s = .next ((s.atSlot 1).returnOutput a) := by
  unfold execOutput
  rcases withSource_cases s 0 m1 _ with ⟨k, hk, h⟩ | ⟨a, ha, h⟩ <;> rw [State.atSlot_zero] at h <;> rw [h]
  · exact .inl ⟨k, hk, rfl⟩
  · exact .inr ⟨a, ha, rfl⟩

/-- adjust-relative-base raises its operand's fault or an overflow, or writes the new base. -/
theorem execAdjustRelativeBase_cases (m1 : Mode) (s : State) :
    (∃ k, (s.SourceFaults 0 m1 k ∨ ∃ a : Word, result64 s.cfg (s.rb.toInt + a.toInt) = .error k) ∧
      execAdjustRelativeBase m1 s = .next (s.raise k)) ∨
      ∃ a r, s.SourceGives 0 m1 a ∧ result64 s.cfg (s.rb.toInt + a.toInt) = .ok r ∧
        execAdjustRelativeBase m1 s = .next ((s.atSlot 1).setRb r) := by
  unfold execAdjustRelativeBase
  rcases withSource_cases s 0 m1 _ with ⟨k, hk, h⟩ | ⟨a, ha, h⟩ <;> rw [State.atSlot_zero] at h <;> rw [h]
  · exact .inl ⟨k, .inl hk, rfl⟩
  · cases hr : result64 s.cfg (s.rb.toInt + a.toInt) with
    | error k => exact .inl ⟨k, .inr ⟨a, hr⟩, by simp [hr]⟩
    | ok r => exact .inr ⟨a, r, ha, hr, by simp [hr]⟩

/-- adjust-relative-base with a readable operand, whatever the sum. -/
theorem execAdjustRelativeBase_gives {m1 : Mode} {s : State} {a : Word} (ha : s.SourceGives 0 m1 a) :
    execAdjustRelativeBase m1 s =
      withResult s (result64 s.cfg (s.rb.toInt + a.toInt)) fun r => .next ((s.atSlot 1).setRb r) := by
  have h0 := withSource_gives ha
  rw [State.atSlot_zero] at h0
  rw [execAdjustRelativeBase, h0]
  rfl

/-! ### Everything an instruction can do -/

/-- A fault of a run, not of a guard: what an instruction, a fetch or a decode can raise (R262, R263). -/
def FaultKind.ofRun (k : FaultKind) : Prop :=
  k ≠ .notActive ∧ k ≠ .alreadyActive

theorem State.SourceFaults.ofRun {s : State} {k : Nat} {m : Mode} {f : FaultKind} (h : s.SourceFaults k m f) :
    f.ofRun := by
  rcases h.kind with rfl | ⟨rfl, -⟩ <;> exact ⟨nofun, nofun⟩

theorem State.DestinationFaults.ofRun {s : State} {k : Nat} {m : Mode} {f : FaultKind}
    (h : s.DestinationFaults k m f) : f.ofRun := by
  rcases h.kind with rfl | rfl | ⟨rfl, -⟩ | ⟨rfl, -⟩ <;> exact ⟨nofun, nofun⟩

/-- The states an instruction that starts at `s` can leave. -/
inductive ExecShape (s : State) : State → Prop where
  | fault (k : FaultKind) (hk : k.ofRun) : ExecShape s (s.raise k)
  | inputFault (k : FaultKind) (hk : k.ofRun) (h : s.inIdx < s.inputs.length) :
      ExecShape s ((s.setInIdx (s.inIdx + 1)).raise k)
  | store (d : Nat) (r : Word) (ip : Int) (hd : s.ValidAddress d) (hc : s.capacityExceededAt d = false) :
      ExecShape s ((s.store d r).setIp ip)
  | inputStore (d : Nat) (r : Word) (ip : Int) (hd : s.ValidAddress d) (hc : s.capacityExceededAt d = false)
      (h : s.inIdx < s.inputs.length) : ExecShape s (((s.store d r).setInIdx (s.inIdx + 1)).setIp ip)
  | goto (ip : Int) : ExecShape s (s.setIp ip)
  | output (v : Word) (ip : Int) : ExecShape s ((s.setIp ip).returnOutput v)
  | adjust (r : Word) (ip : Int) : ExecShape s ((s.setIp ip).setRb r)
  | halt (ip : Int) : ExecShape s ((s.setIp ip).returnHalted)

theorem aluOp_shape {f : Word → Word → Except FaultKind Word}
    (hf : ∀ a b k, f a b = .error k → k = .arithmeticOverflow) (m1 m2 m3 : Mode) (s : State) :
    ∃ t, aluOp f m1 m2 m3 s = .next t ∧ ExecShape s t := by
  rcases aluOp_cases f m1 m2 m3 s with ⟨k, hk, h⟩ | ⟨a, b, r, d, -, -, -, hd, h⟩
  · refine ⟨_, h, .fault k ?_⟩
    rcases hk with hk | hk | ⟨a, b, hk⟩ | hk
    · exact hk.ofRun
    · exact hk.ofRun
    · rw [hf a b k hk]
      exact ⟨nofun, nofun⟩
    · exact hk.ofRun
  · exact ⟨_, h, .store d r _ hd.2.2.1 hd.2.2.2⟩

theorem jumpWhen_shape (taken : Word → Bool) (m1 m2 : Mode) (s : State) :
    ∃ t, jumpWhen taken m1 m2 s = .next t ∧ ExecShape s t := by
  rcases jumpWhen_cases taken m1 m2 s with ⟨k, hk, h⟩ | ⟨c, t, -, -, h⟩
  · exact ⟨_, h, .fault k (hk.elim (·.ofRun) (·.ofRun))⟩
  · refine ⟨_, h, ?_⟩
    split
    · exact .goto _
    · exact .goto _

/-- Every instruction answers a next state, of one of the shapes. -/
theorem exec_shape (i : Instr) (s : State) : ∃ t, exec i s = .next t ∧ ExecShape s t := by
  cases i with
  | add m1 m2 m3 => exact aluOp_shape (fun _ _ _ h => (result64_error h).1) m1 m2 m3 s
  | multiply m1 m2 m3 => exact aluOp_shape (fun _ _ _ h => (result64_error h).1) m1 m2 m3 s
  | lessThan m1 m2 m3 => exact aluOp_shape (fun _ _ _ h => by simp at h) m1 m2 m3 s
  | equals m1 m2 m3 => exact aluOp_shape (fun _ _ _ h => by simp at h) m1 m2 m3 s
  | jumpIfTrue m1 m2 => exact jumpWhen_shape _ m1 m2 s
  | jumpIfFalse m1 m2 => exact jumpWhen_shape _ m1 m2 s
  | halt => exact ⟨_, rfl, .halt s.ip⟩
  | output m1 =>
    rcases execOutput_cases m1 s with ⟨k, hk, h⟩ | ⟨a, -, h⟩
    · exact ⟨_, h, .fault k hk.ofRun⟩
    · exact ⟨_, h, .output a _⟩
  | adjustRelativeBase m1 =>
    rcases execAdjustRelativeBase_cases m1 s with ⟨k, hk | ⟨a, hk⟩, h⟩ | ⟨a, r, -, -, h⟩
    · exact ⟨_, h, .fault k hk.ofRun⟩
    · refine ⟨_, h, .fault k ?_⟩
      rw [(result64_error hk).1]
      exact ⟨nofun, nofun⟩
    · exact ⟨_, h, .adjust r _⟩
  | input m1 =>
    rcases execInput_cases m1 s with ⟨-, h⟩ | ⟨v, hv, ⟨k, hk, h⟩ | ⟨d, hd, h⟩⟩
    · exact ⟨_, h, .fault _ ⟨nofun, nofun⟩⟩
    · exact ⟨_, h, .inputFault k hk.ofRun (List.getElem?_eq_some_iff.1 hv).1⟩
    · exact ⟨_, h, .inputStore d v _ hd.2.2.1 hd.2.2.2 (List.getElem?_eq_some_iff.1 hv).1⟩

/-- Where `IP` stands when an instruction starts does not limit the shapes: each sets it anew. -/
theorem ExecShape.of_setIp {s t : State} {ip : Int} (h : ExecShape (s.setIp ip) t) : ExecShape s t := by
  cases h with
  | fault k hk => exact .fault k hk
  | inputFault k hk h => exact .inputFault k hk h
  | store d r ip hd hc => exact .store d r ip hd hc
  | inputStore d r ip hd hc h => exact .inputStore d r ip hd hc h
  | goto ip => exact .goto ip
  | output v ip => exact .output v ip
  | adjust r ip => exact .adjust r ip
  | halt ip => exact .halt ip

/-! ### Everything a step can do -/

/-- A fetch raises InvalidAddress or UnknownOpcode, or finds the instruction at `IP`. -/
theorem fetchDecode_cases (s : State) :
    (∃ k, (k = .invalidAddress ∨ k = .unknownOpcode) ∧ fetchDecode s = .error k) ∨
      ∃ i, s.ValidAddress s.ip ∧ decode (s.cell s.ip.toNat) = .ok i ∧ fetchDecode s = .ok (i, s.setIp (s.ip + 1)) := by
  unfold fetchDecode
  by_cases hv : s.ValidAddress s.ip
  · rw [memRead_of_valid hv]
    cases hd : decode (s.cell s.ip.toNat) with
    | error e => exact .inl ⟨.unknownOpcode, .inr rfl, by simp [hd]⟩
    | ok i => exact .inr ⟨i, hv, rfl, by simp [hd]⟩
  · rw [memRead_of_invalid hv]
    exact .inl ⟨.invalidAddress, .inl rfl, rfl⟩

/-- A step of a run answers a next state, of one of the shapes of an instruction. -/
theorem step_running {s : State} (hr : s.running = true) : ∃ t, step s = .next t ∧ ExecShape s t := by
  unfold step
  rw [if_pos hr]
  rcases fetchDecode_cases s with ⟨k, hk, h⟩ | ⟨i, -, -, h⟩ <;> rw [h]
  · refine ⟨_, rfl, .fault k ?_⟩
    rcases hk with rfl | rfl <;> exact ⟨nofun, nofun⟩
  · obtain ⟨t, ht, hs⟩ := exec_shape i (s.setIp (s.ip + 1))
    exact ⟨t, ht, hs.of_setIp⟩

/-- The states a step of an idle block can leave. -/
inductive IdleShape (s : State) : State → Prop where
  | wait (h : s.pending = []) : IdleShape s s
  | reset (rest : List Command) (h : s.pending = .reset :: rest) : IdleShape s { s with pending := rest }.doReset
  | stop (rest : List Command) (h : s.pending = .stop :: rest) : IdleShape s { s with pending := rest }.doStop
  | notActive (l : List Word) (rest : List Command) (h : s.pending = .resume l :: rest) (ha : s.active = false) :
      IdleShape s { s with pending := rest }.failNotActive
  | start (l : List Word) (rest : List Command) (h : s.pending = .resume l :: rest) (ha : s.active = true)
      (hl : tooManyInputs s.cfg l = false) : IdleShape s ({ s with pending := rest }.startRun l)

/-- A step of an idle block: a shape above, or the refusal of a `resume` beyond `MAX_INPUTS`. -/
theorem step_idle {s : State} (hr : s.running = false) :
    (∃ t, step s = .next t ∧ IdleShape s t) ∨
      ∃ l rest, s.pending = .resume l :: rest ∧ s.active = true ∧ tooManyInputs s.cfg l = true ∧
        step s = .refused .tooManyInputs := by
  unfold step idleStep
  rw [if_neg (by simp [hr])]
  cases hp : s.pending with
  | nil => exact .inl ⟨_, rfl, .wait hp⟩
  | cons c rest =>
    cases c with
    | reset => exact .inl ⟨_, rfl, .reset rest hp⟩
    | stop => exact .inl ⟨_, rfl, .stop rest hp⟩
    | resume l =>
      cases ha : s.active with
      | false => exact .inl ⟨_, by simp [runCommand, resume, ha], .notActive l rest hp ha⟩
      | true =>
        cases hl : tooManyInputs s.cfg l with
        | false => exact .inl ⟨_, by simp [runCommand, resume, ha, hl], .start l rest hp ha hl⟩
        | true => exact .inr ⟨l, rest, rfl, rfl, hl, by simp [runCommand, resume, hl]⟩

/-- Everything a step that answers a next state can have done. -/
theorem step_cases {s t : State} (h : step s = .next t) :
    (s.running = true ∧ ExecShape s t) ∨ (s.running = false ∧ IdleShape s t) := by
  cases hr : s.running with
  | true =>
    obtain ⟨t', ht', hs⟩ := step_running hr
    rw [ht'] at h
    cases h
    exact .inl ⟨rfl, hs⟩
  | false =>
    rcases step_idle hr with ⟨t', ht', hs⟩ | ⟨l, rest, -, -, -, hstep⟩
    · rw [ht'] at h
      cases h
      exact .inr ⟨rfl, hs⟩
    · rw [hstep] at h
      cases h

end Sys2Proof.Machine
end

