-- ==== Sys2Proof/Machine/Assembler.lean ====
section
/-! DEFINITION. The assembler notation of spec/30_encoding.md R97 as abstract syntax, with the cells each line stands
for (the encoding of R95). It is notation only: the core never reads it. -/

namespace Sys2Proof.Machine

/-- An operand as written: `#v`, `[a]`, `[rb+o]` (R97). -/
inductive AsmOperand where
  | imm (v : Int)
  | pos (a : Int)
  | rel (o : Int)
  deriving DecidableEq, Repr

/-- The mode an operand is written in. -/
def AsmOperand.mode : AsmOperand → Mode
  | .imm _ => .immediate
  | .pos _ => .position
  | .rel _ => .relative

/-- The literal of an operand. A value outside int64, on which R97 is silent, is taken modulo `2^64` (DESIGN CHOICE, log
25). -/
def AsmOperand.literal : AsmOperand → Word
  | .imm v => BitVec.ofInt 64 v
  | .pos a => BitVec.ofInt 64 a
  | .rel o => BitVec.ofInt 64 o

/-- A line of assembly: the ten mnemonics, the two pseudo-instructions and `.word` (R97). -/
inductive AsmLine where
  | add (a b d : AsmOperand)
  | mul (a b d : AsmOperand)
  | inp (d : AsmOperand)
  | out (a : AsmOperand)
  | jt (c t : AsmOperand)
  | jf (c t : AsmOperand)
  | lt (a b d : AsmOperand)
  | eq (a b d : AsmOperand)
  | arb (a : AsmOperand)
  | hlt
  | jmp (t : AsmOperand)
  | mov (s d : AsmOperand)
  | word (v : Int)
  deriving DecidableEq, Repr

/-- The cells of a line (R95, R97): `jmp t` is `jt #1, t`, and `mov s, d` is `add s, #0, d`. A `.word` outside int64 is
taken modulo `2^64` (DESIGN CHOICE, log 25). -/
def AsmLine.cells : AsmLine → List Word
  | .add a b d => encodeCells (.add a.mode b.mode d.mode) [a.literal, b.literal, d.literal]
  | .mul a b d => encodeCells (.multiply a.mode b.mode d.mode) [a.literal, b.literal, d.literal]
  | .inp d => encodeCells (.input d.mode) [d.literal]
  | .out a => encodeCells (.output a.mode) [a.literal]
  | .jt c t => encodeCells (.jumpIfTrue c.mode t.mode) [c.literal, t.literal]
  | .jf c t => encodeCells (.jumpIfFalse c.mode t.mode) [c.literal, t.literal]
  | .lt a b d => encodeCells (.lessThan a.mode b.mode d.mode) [a.literal, b.literal, d.literal]
  | .eq a b d => encodeCells (.equals a.mode b.mode d.mode) [a.literal, b.literal, d.literal]
  | .arb a => encodeCells (.adjustRelativeBase a.mode) [a.literal]
  | .hlt => encodeCells .halt []
  | .jmp t => encodeCells (.jumpIfTrue .immediate t.mode) [1, t.literal]
  | .mov s d => encodeCells (.add s.mode .immediate d.mode) [s.literal, 0, d.literal]
  | .word v => [BitVec.ofInt 64 v]

/-- The image of a program in assembly: its lines' cells, one after another. -/
def assemble : List AsmLine → List Word
  | [] => []
  | l :: ls => l.cells ++ assemble ls

end Sys2Proof.Machine
end

