-- ==== Sys2Proof/Tests/Slice0.lean ====
section
/-! SUPPORT. Tests and witnesses. Every expected value comes from spec/95_test_vectors.md (the row's name stands in the
docstring) or is computed by hand from the rule named; `witness_X` meets the hypotheses of `Obligations.X`. -/

namespace Sys2Proof.Tests

open Sys2Proof Sys2Proof.Machine

/-! ### Helpers -/

/-- Cells by their values. -/
def image (l : List Int) : List Word :=
  l.map (BitVec.ofInt 64)

/-- An engine in a run, at the first instruction of the image, in the first call. -/
def runOf (cfg : Config) : State :=
  { State.resetOf cfg with running := true, resp := none }

/-- The same with the default parameters. -/
def run (l : List Int) : State :=
  runOf (Config.standard (image l))

/-- The same with the fetch of the first word done: where `exec` starts. -/
def atSlot (l : List Int) : State :=
  (run l).setIp 1

/-- The same under the policy `wrap`. -/
def runWrap (l : List Int) : State :=
  runOf { Config.standard (image l) with overflowPolicy := .wrap }

/-- The same with `ADDR_LIMIT = n`. -/
def runLimit (n : Nat) (l : List Int) : State :=
  runOf { Config.standard (image l) with addrLimit := some n }

/-- The same with `TAPE_CAPACITY = n`. -/
def runCapacity (n : Nat) (l : List Int) : State :=
  runOf { Config.standard (image l) with tapeCapacity := some n }

/-- An idle engine after `reset`, whose host will issue the commands. -/
def idle (l : List Int) (cs : List Command) : State :=
  { State.resetOf (Config.standard (image l)) with pending := cs }

/-- One field of the next state a step answers. -/
def after {α : Type} (f : State → α) (o : Host.Outcome State Fault Refusal) : Option α :=
  match o with
  | .next t => some (f t)
  | _ => none

/-- `M` of the vectors. -/
def maxInt : Int :=
  2 ^ 63 - 1

/-- `m` of the vectors. -/
def minInt : Int :=
  -(2 ^ 63)

theorem valid_unbounded {s : State} {a : Int} (hl : s.cfg.addrLimit = none) (ha : 0 ≤ a) : s.ValidAddress a :=
  ⟨ha, fun limit h => by simp [hl] at h⟩

theorem valid_below {s : State} {a : Int} {n : Nat} (hl : s.cfg.addrLimit = some n) (ha : 0 ≤ a) (hb : a < n) :
    s.ValidAddress a :=
  ⟨ha, fun limit h => by simp only [hl, Option.some.injEq] at h; omega⟩

theorem not_valid_negative {s : State} {a : Int} (ha : a < 0) : ¬ s.ValidAddress a :=
  fun h => absurd h.1 (by omega)

theorem not_valid_beyond {s : State} {a : Int} {n : Nat} (hl : s.cfg.addrLimit = some n) (hb : (n : Int) ≤ a) :
    ¬ s.ValidAddress a :=
  fun h => absurd (h.2 n hl) (by omega)

/-! ### Well-formedness: an ill-formed term for each check -/

/-- R92: each legal mode of each role. -/
theorem test_wellformed_accepts :
    WellFormed (.add .position .immediate .relative) = true ∧ WellFormed (.input .position) = true ∧
    WellFormed (.jumpIfFalse .relative .position) = true ∧ WellFormed .halt = true := by decide

theorem test_wellformed_refuses_source_mode :
    WellFormed (.add (.noMode 0) .position .position) = false ∧
    WellFormed (.jumpIfTrue .position (.noMode 6)) = false ∧ WellFormed (.output (.noMode 1)) = false := by decide

theorem test_wellformed_refuses_immediate_destination :
    WellFormed (.input .immediate) = false ∧
    WellFormed (.equals .immediate .immediate .immediate) = false := by decide

theorem test_wellformed_refuses_destination_mode :
    WellFormed (.multiply .position .position (.noMode 0)) = false ∧ WellFormed (.input (.noMode 6)) = false := by
  decide

theorem test_wellformed_refuses_mode_count :
    modesLegal [.source, .destination] [.position] = false ∧ modesLegal [] [.position] = false := by decide

theorem test_wellformed_refuses_parameter_count :
    cellsWellFormed (.output .position) [] = false ∧ cellsWellFormed .halt [0] = false ∧
    cellsWellFormed (.output .position) [3] = true ∧ cellsWellFormed (.input .immediate) [0] = false := by decide

/-! ### Decoding: words written out from R81 to R84 (two digits of opcode, then one digit per mode) -/

theorem test_decode_alu :
    decode 1001 = .ok (.add .position .immediate .position) ∧
    decode 21001 = .ok (.add .position .immediate .relative) ∧
    decode 1102 = .ok (.multiply .immediate .immediate .position) ∧
    decode 1107 = .ok (.lessThan .immediate .immediate .position) ∧
    decode 1008 = .ok (.equals .position .immediate .position) := ⟨rfl, rfl, rfl, rfl, rfl⟩

theorem test_decode_io :
    decode 3 = .ok (.input .position) ∧ decode 203 = .ok (.input .relative) ∧ decode 103 = .ok (.input .immediate) ∧
    decode 104 = .ok (.output .immediate) ∧ decode 204 = .ok (.output .relative) := ⟨rfl, rfl, rfl, rfl, rfl⟩

theorem test_decode_control :
    decode 1105 = .ok (.jumpIfTrue .immediate .immediate) ∧ decode 3105 = .ok (.jumpIfTrue .immediate (.noMode 0)) ∧
    decode 1006 = .ok (.jumpIfFalse .position .immediate) ∧ decode 106 = .ok (.jumpIfFalse .immediate .position) :=
  ⟨rfl, rfl, rfl, rfl⟩

theorem test_decode_machine_control :
    decode 109 = .ok (.adjustRelativeBase .immediate) ∧ decode 9 = .ok (.adjustRelativeBase .position) ∧
    decode 99 = .ok .halt ∧ decode 199 = .ok .halt ∧ decode 10099 = .ok .halt := ⟨rfl, rfl, rfl, rfl, rfl⟩

/-- Section 2, second table: the words that are no instruction. -/
theorem test_decode_refuses :
    decode 0 = .error (.unknownOpcode 0) ∧ decode 10 = .error (.unknownOpcode 10) ∧
    decode 98 = .error (.unknownOpcode 98) ∧ decode 5000 = .error (.unknownOpcode 5000) ∧
    decode (-1) = .error (.unknownOpcode (-1)) ∧ decode (-5) = .error (.unknownOpcode (-5)) ∧
    decode (-99) = .error (.unknownOpcode (-99)) := ⟨rfl, rfl, rfl, rfl, rfl, rfl, rfl⟩

/-- The largest int64 ends in 807: opcode 7, mode digit 8 on parameter 1, 5 and 7 above it. -/
theorem test_decode_largest_word :
    decode (BitVec.ofInt 64 maxInt) = .ok (.lessThan (.noMode 5) (.noMode 2) (.noMode 4)) := rfl

theorem test_encode :
    encode (.jumpIfFalse .position .immediate) = 1006 ∧ encode (.add .relative .relative .position) = 2201 ∧
    encode .halt = 99 := by decide

theorem test_decode_cells :
    decodeCells (image [1001, 4, 1, 4, 99]) = .ok (.add .position .immediate .position, image [4, 1, 4], image [99]) ∧
    decodeCells (image [4]) = .error (.missingParameters 4) ∧ decodeCells [] = .error .noCell := ⟨rfl, rfl, rfl⟩

/-- The host's numbering: `out [5]` with its literal in bits 127 to 64, and a refused word. -/
theorem test_decode_table_word :
    decodeTableWord 128 (4 + 5 * 2 ^ 64) = some (.output .position) ∧ decodeTableWord 64 99 = some .halt ∧
    decodeTableWord 64 98 = none ∧ decodeTableWord 64 (2 ^ 64 - 1) = none := by decide

/-! ### One step of each instruction -/

/-- A3: the overflow faults, and the destination is not written. -/
theorem test_add_overflow :
    after (fun t => (t.fault, t.cell 5, t.active)) (step (run [1101, maxInt, 1, 5, 99])) =
      some (some .arithmeticOverflow, 0, false) := by decide

/-- A8: one cell is both sources and the destination. -/
theorem test_add_same_cell :
    after (fun t => (t.cell 0, t.ip)) (step (run [1, 0, 0, 0, 99])) = some (2, 4) := by decide

/-- V2: a product beyond 32 bits. -/
theorem test_multiply_large :
    after (fun t => (t.cell 7, t.ip)) (step (run [1102, 34915192, 34915192, 7, 4, 7, 99])) =
      some (1219070632396864, 4) := by decide

/-- M6: under `wrap`, `m * -1` is `m`. -/
theorem test_multiply_wraps :
    after (fun t => t.cell 5) (step (runWrap [1102, minInt, -1, 5, 99])) = some (BitVec.ofInt 64 minInt) := by decide

/-- L1: the order is the signed one. -/
theorem test_less_than_signed :
    after (fun t => (t.cell 5, t.ip)) (step (run [1107, -1, 0, 5, 99])) = some (1, 4) := by decide

/-- L4. -/
theorem test_less_than_extremes :
    after (fun t => t.cell 5) (step (run [1107, maxInt, minInt, 5, 99])) = some 0 := by decide

/-- E1. -/
theorem test_equals_sign : after (fun t => t.cell 5) (step (run [1108, -1, 1, 5, 99])) = some 0 := by decide

/-- E3. -/
theorem test_equals_same_cell :
    after (fun t => (t.cell 0, t.ip)) (step (run [8, 0, 0, 0, 99])) = some (1, 4) := by decide

/-- I5, its second instruction: `in [rb-3]` with `RB = 10`. -/
theorem test_input_relative :
    after (fun t => (t.cell 7, t.inIdx, t.ip))
      (step { run [109, 10, 203, -3, 99] with ip := 2, rb := 10, inputs := [9] }) = some (9, 1, 4) := by decide

/-- I4: no input left comes before the immediate destination. -/
theorem test_input_exhausted_first :
    after (fun t => (t.fault, t.cell 0)) (step (run [103, 0, 99])) = some (some .inputExhausted, 103) := by decide

/-- O1. -/
theorem test_output_suspends :
    after (fun t => (t.resp, t.out, t.ip, t.statusWord)) (step (run [4, 3, 99, 55])) =
      some (some (.output 55), 55, 2, 3) := by decide

/-- O5: the mode digit of a parameter `out` does not have is never examined. -/
theorem test_output_ignores_unused_digit :
    after (fun t => t.resp) (step (run [9004, 2, 99])) = some (some (.output 99)) := by decide

/-- J8: a jump to a negative address succeeds. -/
theorem test_jump_if_true_negative_target :
    after (fun t => (t.ip, t.fault, t.running)) (step (run [1105, 1, -5])) = some (-5, none, true) := by decide

/-- J6: the target is read even when the jump is not taken. -/
theorem test_jump_if_true_reads_target :
    after (fun t => t.statusWord) (step (run [3105, 0, 0, 99])) = some 1030 := by decide

/-- J3. -/
theorem test_jump_if_false_taken :
    after (fun t => t.ip) (step (run [1106, 0, 7, 99, 0, 0, 0, 104, 5, 99])) = some 7 := by decide

/-- J7: the target operand at -1 faults although the jump is not taken. -/
theorem test_jump_if_false_reads_target :
    after (fun t => t.fault) (step (run [106, 1, -1, 99])) = some (some .invalidAddress) := by decide

/-- R1, its first instruction. -/
theorem test_adjust_negative :
    after (fun t => (t.rb, t.ip)) (step (run [109, -5, 2201, 10, 11, 0, 99])) = some (-5, 2) := by decide

/-- R4, its second instruction: the overflow faults and `RB` keeps `M`. -/
theorem test_adjust_overflow :
    after (fun t => (t.fault, t.rb))
      (step { run [109, maxInt, 109, 1, 99] with ip := 2, rb := BitVec.ofInt 64 maxInt }) =
      some (some .arithmeticOverflow, BitVec.ofInt 64 maxInt) := by decide

/-- H1. -/
theorem test_halt :
    after (fun t => (t.resp, t.ip, t.statusWord, t.out)) (step (run [99])) = some (some .halted, 1, 4, 0) := by decide

/-- H2. -/
theorem test_halt_ignores_digits :
    after (fun t => (t.resp, t.ip)) (step (run [199])) = some (some .halted, 1) := by decide

/-! ### Modes, addresses and capacity -/

/-- R6: the operand address `2^62 + 2^62` is exact, and its cell reads 0. -/
theorem test_relative_sum_is_exact :
    after (fun t => t.resp)
      (step { run [109, 2 ^ 62, 204, 2 ^ 62, 99] with ip := 2, rb := BitVec.ofInt 64 (2 ^ 62) }) =
      some (some (.output 0)) := by decide

/-- V5, last row, second instruction: a negative `RB` with sums that are addresses. -/
theorem test_negative_base_reads :
    after (fun t => t.cell 0) (step { run [109, -5, 2201, 10, 11, 0, 99] with ip := 2, rb := -5 }) =
      some 99 := by decide

/-- X3 and X1: the computation comes before the destination's mode. -/
theorem test_overflow_before_mode :
    after (fun t => t.fault) (step (run [11101, maxInt, 1, 0])) = some (some .arithmeticOverflow) ∧
    after (fun t => t.statusWord) (step (run [11101, 1, 1, 0])) = some 1286 := by decide

/-- X6: mode 3 on the destination is found after both sources are read. -/
theorem test_destination_mode_digit :
    after (fun t => t.statusWord) (step (run [30001, 0, 0, 0, 99])) = some 1030 := by decide

/-- X12 and X13, their second instructions, with `W = {10}` full. -/
theorem test_capacity :
    after (fun t => (t.statusWord, t.cell 10))
      (step ((runCapacity 1 [1101, 1, 1, 10, 1101, 2, 2, 11, 99]).store 10 2 |>.setIp 4)) = some (2310, 2) ∧
    after (fun t => (t.cell 10, t.written))
      (step ((runCapacity 1 [1101, 1, 1, 10, 1101, 2, 2, 10, 99]).store 10 2 |>.setIp 4)) = some (4, [10]) := by
  decide

/-- X14 and X15. -/
theorem test_address_limit :
    after (fun t => t.fault) (step (runLimit 8 [4, 8, 99])) = some (some .invalidAddress) ∧
    after (fun t => t.resp) (step (runLimit 8 [4, 7, 99])) = some (some (.output 0)) := by decide

/-- X10 and U4: an opcode outside the map, and a negative word. -/
theorem test_unknown_opcode :
    after (fun t => t.statusWord) (step (run [5000, 99])) = some 774 ∧
    after (fun t => t.statusWord) (step (run [-99])) = some 774 := by decide

/-- P7: the cell an instruction stores is the one the next fetch decodes. -/
theorem test_self_modifying :
    after (fun t => (t.cell 4, t.ip)) (step (run [1001, 4, 1, 4, 1101, 6, 7, 12, 4, 12, 99, 0, 0])) =
      some (1102, 4) := by decide

/-- R53, R70: writing what the cell reads as at reset leaves it unlisted, and still counts in `W`. -/
theorem test_write_of_baseline :
    ((run [1, 2]).store 7 0).tape = [] ∧ ((run [1, 2]).store 7 0).written = [7] ∧
    (((run [1, 2]).store 1 5).store 1 2).tape = [] ∧ ((run [1, 2]).store 1 5).written = [] := by decide

/-! ### The host -/

/-- G1: power-on, and the `resume` that fails. -/
theorem test_power_on :
    (State.powerOn (Config.standard [99])).statusWord = 0 ∧
    after (fun t => (t.resp, t.statusWord))
      (step { State.powerOn (Config.standard [99]) with pending := [.resume []] }) =
      some (some (.failed .notActive), 0) := by decide

/-- G3, its `stop` after `Output(1)`. -/
theorem test_stop_keeps_latches :
    after (fun t => (t.ip, t.statusWord, t.out))
      (step { idle [104, 1, 104, 2, 99] [.stop] with ip := 2, last := .output, out := 1 }) = some (2, 2, 1) := by
  decide

/-- V4 and G6: a reset reloads the image and revives the engine. -/
theorem test_reset :
    after (fun t => (t.cell 7, t.cell 0, t.statusWord))
      (step { ((idle [1102, 34915192, 34915192, 7, 4, 7, 99] [.reset]).raise .unknownOpcode).store 7 5 with
        rb := 3 }) = some (0, 1102, 1) := by decide

/-- G8: a `resume` beyond `MAX_INPUTS` has no meaning. -/
theorem test_resume_refused :
    step { State.resetOf { Config.standard [3, 0, 99] with maxInputs := some 1 } with pending := [.resume [1, 2]] } =
      .refused .tooManyInputs := rfl

/-- P5, the start of its call 2: the index restarts at 0 with the new call's inputs. -/
theorem test_resume_restarts_index :
    after (fun t => (t.inIdx, t.inputs, t.ip, t.running, t.resp))
      (step { idle [3, 20, 4, 20, 3, 21, 4, 21, 99] [.resume [7]] with ip := 4, inIdx := 1 }) =
      some (0, [7], 4, true, none) := by decide

/-- R277: an idle block without a command keeps all state. -/
theorem test_idle : step State.reset = .next State.reset := rfl

/-- R232, R233, D15: what the port answers, and that it answers nothing during a run. -/
theorem test_port :
    (match readRegister (idle [99] []) 2 with | .ok v => v | .error _ => -1) = 1 ∧
    (match readRegister (idle [99] []) 5 with | .ok _ => none | .error e => some e) = some .noRegister ∧
    (match observeCell (idle [99] []) 0 with | .ok v => v | .error _ => 0) = 99 ∧
    (match observeCell (idle [99] []) (-1) with | .ok _ => none | .error e => some e) = some .negativeAddress ∧
    (match observeCell (run [99]) 0 with | .ok _ => none | .error e => some e) = some .busy := by decide

/-- The host's `withFetchWord`: the very next step runs `out [5]` laid at 0; `T[5] = 0`. -/
theorem test_with_fetch_word :
    after (fun t => (t.resp, t.ip)) (step (State.reset.withFetchWord 128 (4 + 5 * 2 ^ 64))) =
      some (some (.output 0), 2) := by decide

/-! ### Loader and assembler -/

/-- R96: optional signs, and whitespace around the line trimmed. -/
theorem test_loader_accepts :
    loadImage [' ', '1', ',', '-', '2', ',', '+', '3', '\n'] = some [1, -2, 3] := by decide

/-- R96: an empty element, an empty line, whitespace inside, and a value outside int64 are refused. -/
theorem test_loader_refuses :
    loadImage ['1', ',', ',', '2'] = none ∧ loadImage [] = none ∧ loadImage ['1', ',', ' ', '2'] = none ∧
    loadImage ['9', '2', '2', '3', '3', '7', '2', '0', '3', '6', '8', '5', '4', '7', '7', '5', '8', '0', '8'] =
      none := by decide

/-- V1: the quine's assembly is its image. -/
theorem test_assemble_quine :
    assemble [.arb (.imm 1), .out (.rel (-1)), .add (.pos 100) (.imm 1) (.pos 100), .eq (.pos 100) (.imm 16) (.pos 101),
        .jf (.pos 101) (.imm 0), .hlt] =
      image [109, 1, 204, -1, 1001, 100, 1, 100, 1008, 100, 16, 101, 1006, 101, 0, 99] := by decide

/-- P4 and P6 hold `in`, `.word` and `mov`; `jmp` by R97. -/
theorem test_assemble_notation :
    assemble [.inp (.pos 9), .word (-1)] = image [3, 9, -1] ∧
    assemble [.mov (.pos 51) (.rel 0), .jmp (.imm 4)] = image [21001, 51, 0, 0, 1105, 1, 4] := by decide

/-! ### Witnesses: encoding -/

theorem witness_CellsRoundTrip :
    (image [4, 1, 4]).length = (Instr.add .position .immediate .position).paramCount ∧
    ([] : List Word).length = Instr.halt.paramCount := ⟨rfl, rfl⟩

theorem witness_CanonicalWordFormula :
    (∀ m ∈ (Instr.add .relative .relative .relative).modes, m.digit ≤ 2) ∧ ∀ m ∈ Instr.halt.modes, m.digit ≤ 2 := by
  decide

theorem witness_OpcodeIsWordModHundred :
    0 ≤ (1102 : Word).toInt ∧ decode 1102 = .ok (.multiply .immediate .immediate .position) := by
  exact ⟨by decide, rfl⟩

/-- The first and the last mode digit, at 1 and at 3. -/
theorem witness_ModeDigitsOfWord :
    (0 ≤ (1102 : Word).toInt ∧ decode 1102 = .ok (.multiply .immediate .immediate .position) ∧
      (Instr.multiply .immediate .immediate .position).modes[0]? = some .immediate) ∧
    (0 ≤ (30001 : Word).toInt ∧ decode 30001 = .ok (.add .position .position (.noMode 0)) ∧
      (Instr.add .position .position (.noMode 0)).modes[2]? = some (.noMode 0)) := by
  exact ⟨⟨by decide, rfl, rfl⟩, by decide, rfl, rfl⟩

theorem witness_NegativeWordRaisesUnknownOpcode :
    (run [-1]).running = true ∧ (run [-1]).ValidAddress (run [-1]).ip ∧
    ((run [-1]).cell (run [-1]).ip.toNat).toInt < 0 := by
  exact ⟨rfl, valid_unbounded rfl (by decide), by decide⟩

/-- `halt` with and without an ignored digit, and `add` with the digit above its three modes. -/
theorem witness_UnusedDigitsAreIgnored :
    (0 ≤ (99 : Word).toInt ∧ 0 ≤ (199 : Word).toInt ∧ Opcode.ofNumber ((99 : Word).toNat % 100) = some .halt ∧
      (99 : Word).toNat % 100 = (199 : Word).toNat % 100 ∧
      ∀ k < Opcode.halt.format.roles.length, (99 : Word).toNat / 10 ^ (k + 2) % 10 =
        (199 : Word).toNat / 10 ^ (k + 2) % 10) ∧
    (0 ≤ (1 : Word).toInt ∧ 0 ≤ (100001 : Word).toInt ∧ Opcode.ofNumber ((1 : Word).toNat % 100) = some .add ∧
      (1 : Word).toNat % 100 = (100001 : Word).toNat % 100 ∧
      ∀ k < Opcode.add.format.roles.length, (1 : Word).toNat / 10 ^ (k + 2) % 10 =
        (100001 : Word).toNat / 10 ^ (k + 2) % 10) := by decide

/-- The words 0 and 99, and a run at the illegal word 98. -/
theorem witness_OpcodeMapIsClosed :
    0 ≤ (0 : Word).toInt ∧ (99 : Word).toInt % 100 ∈ [1, 2, 3, 4, 5, 6, 7, 8, 9, 99] ∧
    ((run [98]).running = true ∧ (run [98]).ValidAddress (run [98]).ip ∧
      0 ≤ ((run [98]).cell (run [98]).ip.toNat).toInt ∧
      ((run [98]).cell (run [98]).ip.toNat).toInt % 100 ∉ [1, 2, 3, 4, 5, 6, 7, 8, 9, 99]) := by
  exact ⟨by decide, by decide, rfl, valid_unbounded rfl (by decide), by decide, by decide⟩

/-! ### Witnesses: fetch, slots and the address decoder -/

/-- A fetch at -1, a fetch of an illegal word, a fetch of an instruction. -/
theorem witness_StepRunsFetchedInstr :
    ((run [99]).setIp (-1)).running = true ∧ ¬ ((run [99]).setIp (-1)).ValidAddress ((run [99]).setIp (-1)).ip ∧
    ((run [98]).running = true ∧ (run [98]).ValidAddress (run [98]).ip ∧
      decode ((run [98]).cell (run [98]).ip.toNat) = .error (.unknownOpcode 98)) ∧
    ((run [99]).running = true ∧ (run [99]).ValidAddress (run [99]).ip ∧
      decode ((run [99]).cell (run [99]).ip.toNat) = .ok .halt) := by
  exact ⟨rfl, not_valid_negative (by decide), ⟨rfl, valid_unbounded rfl (by decide), rfl⟩, rfl,
    valid_unbounded rfl (by decide), rfl⟩

theorem witness_SlotReadAdvancesIp :
    (atSlot [1, 5, 6, 7, 99, 3, 4]).ValidAddress ((atSlot [1, 5, 6, 7, 99, 3, 4]).ip + (2 : Nat)) ∧
    readParam .position (atSlot [1, 5, 6, 7, 99, 3, 4]) =
      .ok (3, (atSlot [1, 5, 6, 7, 99, 3, 4]).setIp 2) ∧
    (∃ t, writeParam .position 9 (atSlot [3, 0, 99]) = .ok t) := by
  exact ⟨valid_unbounded rfl (by decide), rfl, _, rfl⟩

/-- A slot that faults, a slot that gives a literal, a negative literal, and a negative sum. -/
theorem witness_ThreeModeAddressDecoder :
    slot ((run [1]).setIp (-1)) = .error .invalidAddress ∧
    slot (atSlot [4, -1]) = .ok (-1, (atSlot [4, -1]).setIp 2) ∧ (-1 : Word).toInt < 0 ∧
    ((atSlot [204, -1]).rb.toInt + (-1 : Word).toInt < 0) := by
  exact ⟨rfl, rfl, by decide, by decide⟩

/-! ### Witnesses: the tape -/

/-- Cell 1 of a two-cell image, and cell 2 just beyond it, after writes elsewhere. -/
theorem witness_ReadOfCellNeverWritten :
    (∀ w ∈ [((0 : Nat), (5 : Word)), (3, 6)], w.1 ≠ 1) ∧ ∀ w ∈ [((0 : Nat), (5 : Word)), (3, 6)], w.1 ≠ 2 := by
  decide

theorem witness_WriteStoresOneCell :
    ¬ (run [99]).ValidAddress (-1) ∧
    ((runCapacity 0 [99]).ValidAddress 1 ∧ (runCapacity 0 [99]).capacityExceededAt (Int.toNat 1) = true) ∧
    ((run [99]).ValidAddress 0 ∧ (run [99]).capacityExceededAt (Int.toNat 0) = false) ∧
    ((∃ t, memWrite (run [99]) 1 0 = .ok t) ∧ (run [99]).cfg.program.length ≤ (1 : Int).toNat ∧
      ∀ c ∈ (run [99]).tape, c.1 ≠ (1 : Int).toNat) := by
  exact ⟨not_valid_negative (by decide), ⟨valid_unbounded rfl (by decide), rfl⟩,
    ⟨valid_unbounded rfl (by decide), rfl⟩, ⟨_, rfl⟩, by decide, by decide⟩

/-- The last address below the limit, the limit itself, and -1 as the fetch address and as an operand. -/
theorem witness_AddressCheckOnEveryAccess :
    ¬ ((7 : Int) < 0 ∨ ∃ limit, (runLimit 8 [99]).cfg.addrLimit = some limit ∧ (limit : Int) ≤ 7) ∧
    ((8 : Int) < 0 ∨ ∃ limit, (runLimit 8 [99]).cfg.addrLimit = some limit ∧ (limit : Int) ≤ 8) ∧
    (((-1 : Int) < 0 ∨ ∃ limit, (run [99]).cfg.addrLimit = some limit ∧ (limit : Int) ≤ -1) ∧
      ((run [99]).setIp (-1)).ip = -1 ∧
      (atSlot [4, -1]).ValidAddress (atSlot [4, -1]).ip ∧
      (atSlot [4, -1]).effectiveAddress 0 .position = some (-1)) := by
  refine ⟨?_, .inr ⟨8, rfl, by decide⟩, .inl (by decide), rfl, valid_unbounded rfl (by decide), rfl⟩
  rintro (h | ⟨limit, h, h'⟩)
  · exact absurd h (by decide)
  · simp only [runLimit, runOf, State.resetOf, Option.some.injEq] at h; omega

/-- `TAPE_CAPACITY = 1` with `W = [10]`: the new address 11 meets the first clause, the address 10 and the image's 0
the second. -/
theorem witness_CapacityCheckAndGrowth :
    ((runCapacity 1 [99]).store 10 2).ValidAddress ((11 : Nat) : Int) ∧
    (∃ c, ((runCapacity 1 [99]).store 10 2).cfg.tapeCapacity = some c ∧
      ((runCapacity 1 [99]).store 10 2).cfg.program.length ≤ 11 ∧ 11 ∉ ((runCapacity 1 [99]).store 10 2).written ∧
      ((runCapacity 1 [99]).store 10 2).written.length = c) ∧
    (¬ ∃ c, ((runCapacity 1 [99]).store 10 2).cfg.tapeCapacity = some c ∧
      ((runCapacity 1 [99]).store 10 2).cfg.program.length ≤ 10 ∧ 10 ∉ ((runCapacity 1 [99]).store 10 2).written ∧
      ((runCapacity 1 [99]).store 10 2).written.length = c) ∧
    (¬ ∃ c, ((runCapacity 1 [99]).store 10 2).cfg.tapeCapacity = some c ∧
      ((runCapacity 1 [99]).store 10 2).cfg.program.length ≤ 0 ∧ 0 ∉ ((runCapacity 1 [99]).store 10 2).written ∧
      ((runCapacity 1 [99]).store 10 2).written.length = c) := by
  refine ⟨valid_unbounded rfl (by decide), ⟨1, rfl, by decide, by decide, rfl⟩, ?_, ?_⟩
  · rintro ⟨c, -, -, h, -⟩; exact h (by decide)
  · rintro ⟨c, -, h, -⟩; exact absurd h (by decide)

/-- A tape built by two writes in one order and in the other. -/
theorem witness_TapesThatReadAlikeAreEqual :
    Memory.wf [5] (Memory.write [5] (Memory.write [5] [] 3 7) 0 1) = true ∧
    Memory.wf [5] (Memory.write [5] (Memory.write [5] [] 0 1) 3 7) = true ∧
    ∀ a, Memory.read [5] (Memory.write [5] (Memory.write [5] [] 3 7) 0 1) a =
      Memory.read [5] (Memory.write [5] (Memory.write [5] [] 0 1) 3 7) a := by
  exact ⟨by decide, by decide, fun a => rfl⟩

/-! ### Witnesses: results -/

/-- The two ends of int64 and the values just outside, under each policy; and the operand of `arb #5`, in range and,
with `RB = M`, out of it. -/
theorem witness_ResultWidth :
    (-(2 ^ 63) ≤ minInt ∧ minInt ≤ 2 ^ 63 - 1) ∧ (-(2 ^ 63) ≤ maxInt ∧ maxInt ≤ 2 ^ 63 - 1) ∧
    (¬ (-(2 ^ 63) ≤ maxInt + 1 ∧ maxInt + 1 ≤ 2 ^ 63 - 1) ∧ (run []).cfg.overflowPolicy = .fault) ∧
    (¬ (-(2 ^ 63) ≤ minInt - 1 ∧ minInt - 1 ≤ 2 ^ 63 - 1) ∧ (runWrap []).cfg.overflowPolicy = .wrap) ∧
    ((atSlot [109, 5]).SourceGives 0 .immediate 5 ∧
      result64 (atSlot [109, 5]).cfg ((atSlot [109, 5]).rb.toInt + (5 : Word).toInt) = .ok 5) ∧
    (((atSlot [109, 5]).setRb (BitVec.ofInt 64 maxInt)).SourceGives 0 .immediate 5 ∧
      result64 (atSlot [109, 5]).cfg ((BitVec.ofInt 64 maxInt : Word).toInt + (5 : Word).toInt) =
        .error .arithmeticOverflow) := by
  exact ⟨by decide, by decide, by decide, by decide, ⟨⟨valid_unbounded rfl (by decide), .inl ⟨rfl, rfl⟩⟩, rfl⟩,
    ⟨valid_unbounded rfl (by decide), .inl ⟨rfl, rfl⟩⟩, rfl⟩

/-- The operands of an instruction whose sources are immediate and whose destination is position 5. -/
theorem immediate_operands {s : State} {a b : Word} (hl : s.cfg.addrLimit = none) (hc : s.cfg.tapeCapacity = none)
    (hip : s.ip = 1) (ha : a = s.cell 1) (hb : b = s.cell 2) (hd : s.cell 3 = 5) :
    s.SourceGives 0 .immediate a ∧ s.SourceGives 1 .immediate b ∧ s.DestinationIs 2 .position 5 := by
  refine ⟨⟨valid_unbounded hl (by rw [hip]; decide), .inl ⟨rfl, ?_⟩⟩,
    ⟨valid_unbounded hl (by rw [hip]; decide), .inl ⟨rfl, ?_⟩⟩, valid_unbounded hl (by rw [hip]; decide), ?_,
    valid_unbounded hl (by decide), ?_⟩
  · simpa [State.literal, hip] using ha
  · simpa [State.literal, hip] using hb
  · simp only [State.effectiveAddress, State.literal, hip]
    exact congrArg some (congrArg BitVec.toInt hd)
  · simp [State.capacityExceededAt, hc]

/-- In range and, under `wrap`, out of range by one. -/
theorem witness_AddStoresSum :
    ((atSlot [1101, 2, 3, 5, 99]).SourceGives 0 .immediate 2 ∧ (atSlot [1101, 2, 3, 5, 99]).SourceGives 1 .immediate 3 ∧
      (atSlot [1101, 2, 3, 5, 99]).DestinationIs 2 .position 5) ∧ inInt64 ((2 : Word).toInt + (3 : Word).toInt) = true ∧
    (((runWrap [1101, maxInt, 1, 5, 99]).setIp 1).SourceGives 0 .immediate (BitVec.ofInt 64 maxInt) ∧
      ((runWrap [1101, maxInt, 1, 5, 99]).setIp 1).SourceGives 1 .immediate 1 ∧
      ((runWrap [1101, maxInt, 1, 5, 99]).setIp 1).DestinationIs 2 .position 5) ∧
    inInt64 ((BitVec.ofInt 64 maxInt : Word).toInt + (1 : Word).toInt) = false ∧
    (runWrap [1101, maxInt, 1, 5, 99]).cfg.overflowPolicy = .wrap := by
  exact ⟨immediate_operands rfl rfl rfl rfl rfl rfl, by decide, immediate_operands rfl rfl rfl rfl rfl rfl,
    by decide, rfl⟩

theorem witness_MultiplyStoresProduct :
    ((atSlot [1102, -3, 4, 5, 99]).SourceGives 0 .immediate (-3) ∧
      (atSlot [1102, -3, 4, 5, 99]).SourceGives 1 .immediate 4 ∧
      (atSlot [1102, -3, 4, 5, 99]).DestinationIs 2 .position 5) ∧
    inInt64 ((-3 : Word).toInt * (4 : Word).toInt) = true ∧
    (((runWrap [1102, minInt, -1, 5, 99]).setIp 1).SourceGives 0 .immediate (BitVec.ofInt 64 minInt) ∧
      ((runWrap [1102, minInt, -1, 5, 99]).setIp 1).SourceGives 1 .immediate (-1) ∧
      ((runWrap [1102, minInt, -1, 5, 99]).setIp 1).DestinationIs 2 .position 5) ∧
    inInt64 ((BitVec.ofInt 64 minInt : Word).toInt * (-1 : Word).toInt) = false ∧
    (runWrap [1102, minInt, -1, 5, 99]).cfg.overflowPolicy = .wrap := by
  exact ⟨immediate_operands rfl rfl rfl rfl rfl rfl, by decide, immediate_operands rfl rfl rfl rfl rfl rfl,
    by decide, rfl⟩

theorem witness_CompareStoresOneOrZero :
    (atSlot [1107, -1, 0, 5, 99]).SourceGives 0 .immediate (-1) ∧
    (atSlot [1107, -1, 0, 5, 99]).SourceGives 1 .immediate 0 ∧
    (atSlot [1107, -1, 0, 5, 99]).DestinationIs 2 .position 5 :=
  immediate_operands rfl rfl rfl rfl rfl rfl

theorem witness_InputStoresNextValue :
    ({ atSlot [3, 0, 99] with inputs := [7] } : State).inputs[0]? = some 7 ∧
    ({ atSlot [3, 0, 99] with inputs := [7] } : State).DestinationIs 0 .position 0 := by
  exact ⟨rfl, valid_unbounded rfl (by decide), rfl, valid_unbounded rfl (by decide), rfl⟩

/-- A source in position and in relative mode. -/
theorem witness_OutputSuspends :
    (atSlot [4, 3, 99, 55]).SourceGives 0 .position 55 ∧
    ((atSlot [204, 0, 99, 55]).setRb 3).SourceGives 0 .relative 55 := by
  exact ⟨⟨valid_unbounded rfl (by decide), .inr ⟨3, rfl, valid_unbounded rfl (by decide), rfl⟩⟩,
    valid_unbounded rfl (by decide), .inr ⟨3, rfl, valid_unbounded rfl (by decide), rfl⟩⟩

theorem witness_JumpsGoToTarget :
    (atSlot [1105, -1, 7]).SourceGives 0 .immediate (-1) ∧ (atSlot [1105, -1, 7]).SourceGives 1 .immediate 7 := by
  exact ⟨⟨valid_unbounded rfl (by decide), .inl ⟨rfl, rfl⟩⟩, valid_unbounded rfl (by decide), .inl ⟨rfl, rfl⟩⟩

theorem witness_AdjustAddsToRelativeBase :
    (atSlot [109, -5]).SourceGives 0 .immediate (-5) ∧
    inInt64 ((atSlot [109, -5]).rb.toInt + (-5 : Word).toInt) = true ∧
    (((runWrap [109, 1]).setIp 1).setRb (BitVec.ofInt 64 maxInt)).SourceGives 0 .immediate 1 ∧
    inInt64 ((BitVec.ofInt 64 maxInt : Word).toInt + (1 : Word).toInt) = false ∧
    (runWrap [109, 1]).cfg.overflowPolicy = .wrap := by
  exact ⟨⟨valid_unbounded rfl (by decide), .inl ⟨rfl, rfl⟩⟩, by decide,
    ⟨valid_unbounded rfl (by decide), .inl ⟨rfl, rfl⟩⟩, by decide, rfl⟩

theorem witness_HaltEndsTheRun :
    (0 ≤ (10099 : Word).toInt ∧ (10099 : Word).toInt % 100 = 99) ∧
    ((run [199]).running = true ∧ (run [199]).ValidAddress (run [199]).ip ∧
      decode ((run [199]).cell (run [199]).ip.toNat) = .ok .halt) ∧
    ((idle [99] [.resume []]).returnHalted.active = false ∧ (idle [99] [.resume []]).returnHalted.running = false ∧
      step (idle [99] [.resume []]).returnHalted = .next (idle [99] []).returnHalted.failNotActive) := by
  exact ⟨by decide, ⟨rfl, valid_unbounded rfl (by decide), rfl⟩, rfl, rfl, rfl⟩

/-! ### Witnesses: faults -/

/-- X7, X8, X3 (the overflow), X1 and X12 (the destination): one row per clause. -/
theorem witness_AluFaultPriority :
    (atSlot [1, -1, 0, 0, 99]).SourceFaults 0 .position .invalidAddress ∧
    ((atSlot [101, 0, -1, 0, 99]).SourceGives 0 .immediate 0 ∧
      (atSlot [101, 0, -1, 0, 99]).SourceFaults 1 .position .invalidAddress) ∧
    ((atSlot [1101, maxInt, 1, 5]).SourceGives 0 .immediate (BitVec.ofInt 64 maxInt) ∧
      (atSlot [1101, maxInt, 1, 5]).SourceGives 1 .immediate 1 ∧
      inInt64 ((BitVec.ofInt 64 maxInt : Word).toInt + (1 : Word).toInt) = false ∧
      (atSlot [1101, maxInt, 1, 5]).cfg.overflowPolicy = .fault) ∧
    ((atSlot [1102, minInt, -1, 5]).SourceGives 0 .immediate (BitVec.ofInt 64 minInt) ∧
      (atSlot [1102, minInt, -1, 5]).SourceGives 1 .immediate (-1) ∧
      inInt64 ((BitVec.ofInt 64 minInt : Word).toInt * (-1 : Word).toInt) = false ∧
      (atSlot [1102, minInt, -1, 5]).cfg.overflowPolicy = .fault) ∧
    ((atSlot [11101, 1, 1, 0]).SourceGives 0 .immediate 1 ∧ (atSlot [11101, 1, 1, 0]).SourceGives 1 .immediate 1 ∧
      (atSlot [11101, 1, 1, 0]).DestinationFaults 2 .immediate .invalidWriteMode ∧
      inInt64 ((1 : Word).toInt + (1 : Word).toInt) = true ∧ inInt64 ((1 : Word).toInt * (1 : Word).toInt) = true) ∧
    (((runCapacity 0 [1101, 1, 1, 10]).setIp 1).DestinationFaults 2 .position .capacityExceeded) := by
  refine ⟨.inr ⟨valid_unbounded rfl (by decide), .inr ⟨-1, rfl, not_valid_negative (by decide), rfl⟩⟩,
    ⟨⟨valid_unbounded rfl (by decide), .inl ⟨rfl, rfl⟩⟩,
      .inr ⟨valid_unbounded rfl (by decide), .inr ⟨-1, rfl, not_valid_negative (by decide), rfl⟩⟩⟩,
    ⟨⟨valid_unbounded rfl (by decide), .inl ⟨rfl, rfl⟩⟩, ⟨valid_unbounded rfl (by decide), .inl ⟨rfl, rfl⟩⟩,
      by decide, rfl⟩,
    ⟨⟨valid_unbounded rfl (by decide), .inl ⟨rfl, rfl⟩⟩, ⟨valid_unbounded rfl (by decide), .inl ⟨rfl, rfl⟩⟩,
      by decide, rfl⟩,
    ⟨⟨valid_unbounded rfl (by decide), .inl ⟨rfl, rfl⟩⟩, ⟨valid_unbounded rfl (by decide), .inl ⟨rfl, rfl⟩⟩,
      .inr ⟨valid_unbounded rfl (by decide), .inl ⟨rfl, rfl⟩⟩, by decide, by decide⟩,
    .inr ⟨valid_unbounded rfl (by decide),
      .inr (.inr ⟨10, rfl, .inr ⟨valid_unbounded rfl (by decide), by decide, rfl⟩⟩)⟩⟩

/-- I2, I7, O4 (mode 4), J7 and R4: one row per clause. -/
theorem witness_OtherFaultPriority :
    (atSlot [3, 0, 99]).inputs.length ≤ (atSlot [3, 0, 99]).inIdx ∧
    (({ atSlot [303, 0, 99] with inputs := [1] } : State).inIdx <
        ({ atSlot [303, 0, 99] with inputs := [1] } : State).inputs.length ∧
      ({ atSlot [303, 0, 99] with inputs := [1] } : State).DestinationFaults 0 (.noMode 0) .unknownAddressingMode) ∧
    (atSlot [404, 0]).SourceFaults 0 (.noMode 1) .unknownAddressingMode ∧
    ((atSlot [106, 1, -1, 99]).SourceGives 0 .immediate 1 ∧
      (atSlot [106, 1, -1, 99]).SourceFaults 1 .position .invalidAddress) ∧
    (((atSlot [109, 1]).setRb (BitVec.ofInt 64 maxInt)).SourceGives 0 .immediate 1 ∧
      inInt64 ((BitVec.ofInt 64 maxInt : Word).toInt + (1 : Word).toInt) = false ∧
      (atSlot [109, 1]).cfg.overflowPolicy = .fault) := by
  refine ⟨by decide, ⟨by decide, .inr ⟨valid_unbounded rfl (by decide), .inr (.inl ⟨⟨0, rfl⟩, rfl⟩)⟩⟩,
    .inr ⟨valid_unbounded rfl (by decide), .inl ⟨⟨1, rfl⟩, rfl⟩⟩,
    ⟨⟨valid_unbounded rfl (by decide), .inl ⟨rfl, rfl⟩⟩,
      .inr ⟨valid_unbounded rfl (by decide), .inr ⟨-1, rfl, not_valid_negative (by decide), rfl⟩⟩⟩,
    ⟨valid_unbounded rfl (by decide), .inl ⟨rfl, rfl⟩⟩, by decide, rfl⟩

theorem witness_FaultEntryIsPrecise :
    (run [98]).running = true ∧ (run [98]).resp = none ∧ step (run [98]) = .next ((run [98]).raise .unknownOpcode) ∧
    ((run [98]).raise .unknownOpcode).resp = some (.failed .unknownOpcode) := ⟨rfl, rfl, rfl, rfl⟩

theorem witness_LegalModesNeverFault :
    WellFormed (.output .position) = true ∧ (atSlot [4, -1]).resp = none ∧
    exec (.output .position) (atSlot [4, -1]) = .next ((atSlot [4, -1]).raise .invalidAddress) ∧
    ((atSlot [4, -1]).raise .invalidAddress).resp = some (.failed .invalidAddress) := ⟨rfl, rfl, rfl, rfl⟩

/-! ### Witnesses: what an instruction leaves unchanged (a next state by its effect, and one by its fault) -/

theorem witness_AluFrame :
    exec (.add .position .position .position) (atSlot [1, 0, 0, 0, 99]) =
      .next (((atSlot [1, 0, 0, 0, 99]).store 0 2).setIp 4) ∧
    exec (.add .position .position .position) (atSlot [1, -1, 0, 0, 99]) =
      .next ((atSlot [1, -1, 0, 0, 99]).raise .invalidAddress) ∧
    decodeDestination .position (atSlot [1, 0, 0, 0, 99]).rb ((atSlot [1, 0, 0, 0, 99]).literal 2) ≠
      .ok ((1 : Nat) : Int) := by
  refine ⟨rfl, rfl, fun h => ?_⟩
  cases h

theorem witness_InputFrame :
    exec (.input .position) { atSlot [3, 0, 99] with inputs := [7] } =
      .next ((({ atSlot [3, 0, 99] with inputs := [7] } : State).store 0 7).setInIdx 1 |>.setIp 2) ∧
    exec (.input .position) (atSlot [3, 0, 99]) = .next ((atSlot [3, 0, 99]).raise .inputExhausted) ∧
    decodeDestination .position (atSlot [3, 0, 99]).rb ((atSlot [3, 0, 99]).literal 0) ≠ .ok ((1 : Nat) : Int) := by
  refine ⟨rfl, rfl, fun h => ?_⟩
  cases h

theorem witness_JumpFrame :
    exec (.jumpIfTrue .immediate .immediate) (atSlot [1105, 1, -5]) = .next ((atSlot [1105, 1, -5]).setIp (-5)) ∧
    exec (.jumpIfFalse .immediate .position) (atSlot [106, 1, -1, 99]) =
      .next ((atSlot [106, 1, -1, 99]).raise .invalidAddress) := ⟨rfl, rfl⟩

theorem witness_AdjustFrame :
    exec (.adjustRelativeBase .immediate) (atSlot [109, -5]) = .next (((atSlot [109, -5]).setIp 2).setRb (-5)) :=
  rfl

theorem witness_SuspendAndHaltFrame :
    exec (.output .immediate) (atSlot [104, -1]) = .next (((atSlot [104, -1]).setIp 2).returnOutput (-1)) ∧
    exec .halt (atSlot [99]) = .next (atSlot [99]).returnHalted := ⟨rfl, rfl⟩

/-! ### Witnesses: the host -/

/-- The last cell of the image and the first beyond it. -/
theorem witness_TapeResetReloadsImage :
    0 < (run [99]).cfg.program.length ∧ (run [99]).cfg.program.length ≤ 1 := by decide

theorem witness_ResetCommand :
    (idle [99] [.reset, .stop]).running = false ∧ (idle [99] [.reset, .stop]).pending = .reset :: [.stop] :=
  ⟨rfl, rfl⟩

theorem witness_StopCommand :
    (idle [99] [.stop]).running = false ∧ (idle [99] [.stop]).pending = .stop :: [] := ⟨rfl, rfl⟩

/-- An inactive engine; an active one with one input too many; an active one with as many as `MAX_INPUTS`. -/
theorem witness_ResumeCommand :
    ((idle [99] [.resume [1]]).doStop.running = false ∧ (idle [99] [.resume [1]]).doStop.pending = .resume [1] :: [] ∧
      (idle [99] [.resume [1]]).doStop.active = false) ∧
    ((State.resetOf { Config.standard [99] with maxInputs := some 1 }).active = true ∧
      ∃ n, (State.resetOf { Config.standard [99] with maxInputs := some 1 }).cfg.maxInputs = some n ∧
        n < ([1, 2] : List Word).length) ∧
    ((State.resetOf { Config.standard [99] with maxInputs := some 1 }).active = true ∧
      ∀ n, (State.resetOf { Config.standard [99] with maxInputs := some 1 }).cfg.maxInputs = some n →
        ([1] : List Word).length ≤ n) := by
  refine ⟨⟨rfl, rfl, rfl⟩, ⟨rfl, 1, rfl, by decide⟩, rfl, fun n h => ?_⟩
  simp only [State.resetOf, Option.some.injEq] at h
  simp [← h]

theorem witness_GuardFailureChangesNothing :
    ({ State.powerOn (Config.standard [99]) with pending := [.resume []] } : State).running = false ∧
    ({ State.powerOn (Config.standard [99]) with pending := [.resume []] } : State).active = false ∧
    ({ State.powerOn (Config.standard [99]) with pending := [.resume []] } : State).pending = .resume [] :: [] :=
  ⟨rfl, rfl, rfl⟩

/-- Output, a fault, a failed guard, `reset` and `stop`: one row per response (`halt` has no hypothesis). -/
theorem witness_ResponsesSetLatches :
    ((atSlot [104, -1]).active = true ∧ (atSlot [104, -1]).SourceGives 0 .immediate (-1)) ∧
    ((run [98]).running = true ∧ (run [98]).resp = none ∧
      step (run [98]) = .next ((run [98]).raise .unknownOpcode) ∧
      ((run [98]).raise .unknownOpcode).resp = some (.failed .unknownOpcode)) ∧
    ((idle [99] [.resume []]).doStop.running = false ∧ (idle [99] [.resume []]).doStop.active = false ∧
      (idle [99] [.resume []]).doStop.pending = .resume [] :: []) ∧
    ((idle [99] [.reset]).running = false ∧ (idle [99] [.reset]).pending = .reset :: []) ∧
    ((idle [99] [.stop]).running = false ∧ (idle [99] [.stop]).pending = .stop :: []) := by
  exact ⟨⟨rfl, valid_unbounded rfl (by decide), .inl ⟨rfl, rfl⟩⟩, ⟨rfl, rfl, rfl, rfl⟩, ⟨rfl, rfl, rfl⟩, ⟨rfl, rfl⟩,
    rfl, rfl⟩

/-- Each of the three control states, with a command where one is taken. -/
theorem witness_ControlStateMachine :
    ((idle [99] [.reset]).control ≠ .running ∧ (idle [99] [.reset]).pending = .reset :: []) ∧
    ((idle [99] [.stop]).control ≠ .running ∧ (idle [99] [.stop]).pending = .stop :: []) ∧
    ((idle [99] [.resume []]).doStop.control = .idleInactive ∧
      (idle [99] [.resume []]).doStop.pending = .resume [] :: []) ∧
    ((idle [99] [.resume []]).control = .idleActive ∧ (idle [99] [.resume []]).pending = .resume [] :: [] ∧
      tooManyInputs (idle [99] [.resume []]).cfg [] = false) ∧
    ((run [99]).control = .running ∧ (run [99]).active = true ∧ (run [99]).resp = none) := by decide

theorem witness_BootOrder :
    ∀ n, ({ Config.standard [99] with maxInputs := some 1 } : Config).maxInputs = some n →
      ([5] : List Word).length ≤ n := by
  intro n h
  simp only [Option.some.injEq] at h
  simp [← h]

theorem witness_SuspensionIsInvisible :
    ((idle [99] []).running = false ∧ (idle [99] []).pending = []) ∧
    (({ run [104, 1, 99] with pending := [.resume []] } : State).NextInstr (.output .immediate) ∧
      (({ run [104, 1, 99] with pending := [.resume []] } : State).setIp 1).SourceGives 0 .immediate 1 ∧
      ({ run [104, 1, 99] with pending := [.resume []] } : State).active = true ∧
      tooManyInputs (run [104, 1, 99]).cfg [] = false) := by
  exact ⟨⟨rfl, rfl⟩, ⟨rfl, valid_unbounded rfl (by decide), rfl⟩,
    ⟨valid_unbounded rfl (by decide), .inl ⟨rfl, rfl⟩⟩, rfl, rfl⟩

theorem witness_RegisterMap :
    (idle [99] []).running = false ∧ 4 < 5 ∧ (idle [99] []).fault = none ∧
    ((idle [99] []).raise .capacityExceeded).fault = some .capacityExceeded := by decide

/-- The first and the last address below `ADDR_LIMIT = 8`, and -1. -/
theorem witness_ObservationPort :
    (State.resetOf (runLimit 8 [99]).cfg).running = false ∧
    (State.resetOf (runLimit 8 [99]).cfg).ValidAddress 0 ∧ (State.resetOf (runLimit 8 [99]).cfg).ValidAddress 7 ∧
    (-1 : Int) < 0 := by
  exact ⟨rfl, valid_below rfl (by decide) (by decide), valid_below rfl (by decide) (by decide), by decide⟩

/-! ### Witnesses: rules over every step -/

theorem witness_ParametersNeverChange : step (run [99]) = .next ((run [99]).setIp 1).returnHalted := rfl

/-- `reset` of an inactive engine; halt, a fault and `stop` of an active one; a `resume` of an inactive one. -/
theorem witness_ActiveChangesOnlyAsStated :
    (step (idle [99] [.reset]).doStop = .next ((idle [99] [])) ∧ (idle [99] [.reset]).doStop.active = false ∧
      (idle [99] []).active = true) ∧
    (step (run [99]) = .next ((run [99]).setIp 1).returnHalted ∧ (run [99]).active = true ∧
      ((run [99]).setIp 1).returnHalted.active = false) ∧
    ((run [98]).running = true ∧ (run [98]).resp = none ∧
      step (run [98]) = .next ((run [98]).raise .unknownOpcode) ∧
      ((run [98]).raise .unknownOpcode).resp = some (.failed .unknownOpcode)) ∧
    ((idle [99] [.stop]).running = false ∧ (idle [99] [.stop]).pending = .stop :: []) ∧
    ((idle [99] [.resume []]).doStop.running = false ∧ (idle [99] [.resume []]).doStop.active = false ∧
      (idle [99] [.resume []]).doStop.pending = .resume [] :: []) :=
  ⟨⟨rfl, rfl, rfl⟩, ⟨rfl, rfl, rfl⟩, ⟨rfl, rfl, rfl, rfl⟩, ⟨rfl, rfl⟩, rfl, rfl, rfl⟩

theorem witness_RelativeBaseChangesOnlyByAdjust :
    step (run [109, -5]) = .next (((run [109, -5]).setIp 2).setRb (-5)) ∧
    (((run [109, -5]).setIp 2).setRb (-5)).rb ≠ (run [109, -5]).rb := ⟨rfl, by decide⟩

theorem witness_OnlyTakenJumpsRedirect :
    (atSlot [1105, 1, -5]).resp = none ∧
    exec (.jumpIfTrue .immediate .immediate) (atSlot [1105, 1, -5]) = .next ((atSlot [1105, 1, -5]).setIp (-5)) :=
  ⟨rfl, rfl⟩

theorem witness_InputIndexIsPerCall :
    ((idle [99] [.resume [7]]).running = false ∧ (idle [99] [.resume [7]]).active = true ∧
      (idle [99] [.resume [7]]).pending = .resume [7] :: [] ∧ tooManyInputs (idle [99] [.resume [7]]).cfg [7] = false) ∧
    exec (.input .position) { atSlot [3, 0, 99] with inputs := [7] } =
      .next ((({ atSlot [3, 0, 99] with inputs := [7] } : State).store 0 7).setInIdx 1 |>.setIp 2) ∧
    ((atSlot [99]).running = true ∧ exec .halt (atSlot [99]) = .next (atSlot [99]).returnHalted ∧
      (atSlot [99]).returnHalted.running = false) :=
  ⟨⟨rfl, rfl, rfl, rfl⟩, rfl, rfl, rfl, rfl⟩

theorem witness_HostHasNoMoveDuringRun : (run [99]).running = true := rfl

theorem witness_LatchesAddNoBehaviour : (run [104, 1]).running = true := rfl

/-- A running engine meets the three invariants, and steps. -/
theorem run_inv : (run [1, 0, 0, 5]).TapeInv ∧ (run [1, 0, 0, 5]).CallInv ∧ (run [1, 0, 0, 5]).LatchInv := by
  refine ⟨⟨rfl, rfl, by decide, fun _ h => (by cases h), fun _ h => (by cases h), fun _ h => (by cases h)⟩,
    ⟨fun _ => rfl, fun _ => rfl, fun _ => rfl, fun _ => by decide, fun _ h => (by cases h)⟩,
    ⟨by decide, by decide, by decide, fun _ => rfl, fun _ h => (by cases h), fun h => (by cases h),
      fun _ h => (by cases h)⟩⟩

theorem witness_TapeInvariantIsKept :
    (run [1, 0, 0, 5]).TapeInv ∧ step (run [1, 0, 0, 5]) = .next (((run [1, 0, 0, 5]).store 5 2).setIp 4) :=
  ⟨run_inv.1, rfl⟩

theorem witness_CallInvariantIsKept :
    (run [1, 0, 0, 5]).CallInv ∧ step (run [1, 0, 0, 5]) = .next (((run [1, 0, 0, 5]).store 5 2).setIp 4) :=
  ⟨run_inv.2.1, rfl⟩

theorem witness_LatchInvariantIsKept :
    (run [1, 0, 0, 5]).CallInv ∧ (run [1, 0, 0, 5]).LatchInv ∧
    step (run [1, 0, 0, 5]) = .next (((run [1, 0, 0, 5]).store 5 2).setIp 4) :=
  ⟨run_inv.2.1, run_inv.2.2, rfl⟩

/-- A line that is refused, one that is not, the least int64 and a signed zero as elements, and one past the greatest. -/
theorem witness_LoaderRefusesBadLines :
    (∃ e ∈ splitCommas (trimSpace ['1', ',']), parseElement e = none) ∧
    loadImage ['1', ',', '-', '2'] = some [1, -2] ∧
    signedValue ['-'] ['9', '2', '2', '3', '3', '7', '2', '0', '3', '6', '8', '5', '4', '7', '7', '5', '8', '0', '8'] =
      minInt ∧
    parseElement ['-', '9', '2', '2', '3', '3', '7', '2', '0', '3', '6', '8', '5', '4', '7', '7', '5', '8', '0', '8'] =
      some (BitVec.ofInt 64 minInt) ∧
    parseElement ['+', '0'] = some 0 ∧
    parseElement ['9', '2', '2', '3', '3', '7', '2', '0', '3', '6', '8', '5', '4', '7', '7', '5', '8', '0', '8'] = none ∧
    parseElement ['-'] = none ∧ parseElement ['-', '-', '1'] = none := by
  exact ⟨⟨[], by decide, by decide⟩, by decide, by decide, by decide, by decide, by decide, by decide, by decide⟩

end Sys2Proof.Tests
end

section
/-! SUPPORT. What `ACTIVE` does in a step (spec/10_state.md R25): read off the shapes of a run's step and of an idle
block's step, with the one fact the shapes leave open, that no instruction but halt ends a run with `Halted`. -/

namespace Sys2Proof.Machine

/-! ### `ACTIVE` in the shapes of a step -/

/-- An instruction either ends the run, with a fault or with `Halted`, and clears `ACTIVE`, or it keeps `ACTIVE` and
answers nothing but an output. -/
theorem ExecShape.active_cases {s t : State} (h : ExecShape s t) :
    (t.active = false ∧ ((∃ k, t.resp = some (.failed k)) ∨ t.resp = some .halted)) ∨
      (t.active = s.active ∧ (t.resp = s.resp ∨ ∃ v, t.resp = some (.output v))) := by
  cases h with
  | fault k => exact .inl ⟨rfl, .inl ⟨k, rfl⟩⟩
  | inputFault k => exact .inl ⟨rfl, .inl ⟨k, rfl⟩⟩
  | halt => exact .inl ⟨rfl, .inr rfl⟩
  | output v => exact .inr ⟨rfl, .inr ⟨v, rfl⟩⟩
  | store => exact .inr ⟨rfl, .inl rfl⟩
  | inputStore => exact .inr ⟨rfl, .inl rfl⟩
  | goto => exact .inr ⟨rfl, .inl rfl⟩
  | adjust => exact .inr ⟨rfl, .inl rfl⟩

/-- Of the host's commands `reset` sets `ACTIVE`, `stop` clears it, and the others keep it. -/
theorem IdleShape.active_cases {s t : State} (h : IdleShape s t) :
    ((∃ rest, s.pending = .reset :: rest) ∧ t.active = true) ∨
      ((∃ rest, s.pending = .stop :: rest) ∧ t.active = false) ∨ t.active = s.active := by
  cases h with
  | reset rest hp => exact .inl ⟨⟨rest, hp⟩, rfl⟩
  | stop rest hp => exact .inr (.inl ⟨⟨rest, hp⟩, rfl⟩)
  | wait => exact .inr (.inr rfl)
  | notActive => exact .inr (.inr rfl)
  | start => exact .inr (.inr rfl)

/-! ### Only halt clears `ACTIVE` without a fault -/

/-- The instruction fails, or it keeps `ACTIVE`. -/
def State.FailedOrKeepsActive (s t : State) : Prop :=
  (∃ k, t.resp = some (.failed k)) ∨ t.active = s.active

theorem aluOp_failedOrKeepsActive (f : Word → Word → Except FaultKind Word) (m1 m2 m3 : Mode) (s : State) :
    ∃ t, aluOp f m1 m2 m3 s = .next t ∧ s.FailedOrKeepsActive t := by
  rcases aluOp_cases f m1 m2 m3 s with ⟨k, -, h⟩ | ⟨a, b, r, d, -, -, -, -, h⟩
  · exact ⟨_, h, .inl ⟨k, rfl⟩⟩
  · exact ⟨_, h, .inr rfl⟩

theorem jumpWhen_failedOrKeepsActive (taken : Word → Bool) (m1 m2 : Mode) (s : State) :
    ∃ t, jumpWhen taken m1 m2 s = .next t ∧ s.FailedOrKeepsActive t := by
  rcases jumpWhen_cases taken m1 m2 s with ⟨k, -, h⟩ | ⟨c, t, -, -, h⟩
  · exact ⟨_, h, .inl ⟨k, rfl⟩⟩
  · refine ⟨_, h, .inr ?_⟩
    split
    · rfl
    · rfl

/-- Every instruction but halt fails or keeps `ACTIVE`. -/
theorem exec_failedOrKeepsActive {i : Instr} (hi : i ≠ .halt) (s : State) :
    ∃ t, exec i s = .next t ∧ s.FailedOrKeepsActive t := by
  cases i with
  | halt => exact absurd rfl hi
  | add m1 m2 m3 => exact aluOp_failedOrKeepsActive _ m1 m2 m3 s
  | multiply m1 m2 m3 => exact aluOp_failedOrKeepsActive _ m1 m2 m3 s
  | lessThan m1 m2 m3 => exact aluOp_failedOrKeepsActive _ m1 m2 m3 s
  | equals m1 m2 m3 => exact aluOp_failedOrKeepsActive _ m1 m2 m3 s
  | jumpIfTrue m1 m2 => exact jumpWhen_failedOrKeepsActive _ m1 m2 s
  | jumpIfFalse m1 m2 => exact jumpWhen_failedOrKeepsActive _ m1 m2 s
  | input m1 =>
    rcases execInput_cases m1 s with ⟨-, h⟩ | ⟨v, -, ⟨k, -, h⟩ | ⟨d, -, h⟩⟩
    · exact ⟨_, h, .inl ⟨_, rfl⟩⟩
    · exact ⟨_, h, .inl ⟨k, rfl⟩⟩
    · exact ⟨_, h, .inr rfl⟩
  | output m1 =>
    rcases execOutput_cases m1 s with ⟨k, -, h⟩ | ⟨a, -, h⟩
    · exact ⟨_, h, .inl ⟨k, rfl⟩⟩
    · exact ⟨_, h, .inr rfl⟩
  | adjustRelativeBase m1 =>
    rcases execAdjustRelativeBase_cases m1 s with ⟨k, -, h⟩ | ⟨a, r, -, -, h⟩
    · exact ⟨_, h, .inl ⟨k, rfl⟩⟩
    · exact ⟨_, h, .inr rfl⟩

/-! ### A step by what it runs -/

/-- A step of a run takes a fault of the fetch, or it executes the instruction at `IP`. -/
theorem step_running_nextInstr {s : State} (hr : s.running = true) :
    (∃ k, step s = .next (s.raise k)) ∨ ∃ i, s.NextInstr i ∧ step s = exec i (s.setIp (s.ip + 1)) := by
  unfold step
  rw [if_pos hr]
  rcases fetchDecode_cases s with ⟨k, -, h⟩ | ⟨i, hv, hd, h⟩ <;> rw [h]
  · exact .inl ⟨k, rfl⟩
  · exact .inr ⟨i, ⟨hr, hv, hd⟩, rfl⟩

/-- A step of an idle block with a command pending is that command. -/
theorem step_of_pending {s : State} {c : Command} {rest : List Command} (hr : s.running = false)
    (hp : s.pending = c :: rest) : step s = runCommand c { s with pending := rest } := by
  simp [step, idleStep, hr, hp]

/-- A step of a run that executes no halt fails or keeps `ACTIVE`. -/
theorem step_running_failedOrKeepsActive {s t : State} (hr : s.running = true) (hn : ¬ s.NextInstr .halt)
    (h : step s = .next t) : s.FailedOrKeepsActive t := by
  rcases step_running_nextInstr hr with ⟨k, hk⟩ | ⟨i, hi, hstep⟩
  · cases hk.symm.trans h
    exact .inl ⟨k, rfl⟩
  · have hne : i ≠ .halt := fun e => hn (e ▸ hi)
    obtain ⟨t', ht', hs⟩ := exec_failedOrKeepsActive hne (s.setIp (s.ip + 1))
    cases (hstep.trans ht').symm.trans h
    exact hs

/-! ### The rule, clause by clause -/

/-- Only `reset` sets `ACTIVE`. -/
theorem reset_of_step_sets_active {s t : State} (h : step s = .next t) (hs : s.active = false)
    (ht : t.active = true) : s.running = false ∧ ∃ rest, s.pending = .reset :: rest := by
  rcases step_cases h with ⟨-, hx⟩ | ⟨hr, hx⟩
  · rcases hx.active_cases with ⟨ha, -⟩ | ⟨ha, -⟩
    · simp [ha] at ht
    · simp [ha, hs] at ht
  · rcases hx.active_cases with ⟨hp, -⟩ | ⟨-, ha⟩ | ha
    · exact ⟨hr, hp⟩
    · simp [ha] at ht
    · simp [ha, hs] at ht

/-- Only halt, a fault of a run and `stop` clear `ACTIVE`. -/
theorem step_clears_active {s t : State} (h : step s = .next t) (hs : s.active = true) (ht : t.active = false) :
    s.NextInstr .halt ∨ (s.running = true ∧ ∃ k, t.resp = some (.failed k)) ∨
      (s.running = false ∧ ∃ rest, s.pending = .stop :: rest) := by
  rcases step_cases h with ⟨hr, -⟩ | ⟨hr, hx⟩
  · by_cases hn : s.NextInstr .halt
    · exact .inl hn
    · rcases step_running_failedOrKeepsActive hr hn h with hk | ha
      · exact .inr (.inl ⟨hr, hk⟩)
      · simp [ha, hs] at ht
  · rcases hx.active_cases with ⟨-, ha⟩ | ⟨hp, -⟩ | ha
    · simp [ha] at ht
    · exact .inr (.inr ⟨hr, hp⟩)
    · simp [ha, hs] at ht

/-- A fault of a run clears `ACTIVE`: the run held no response, so a failure it answers is one it raised. -/
theorem inactive_of_step_fails {s t : State} {k : FaultKind} (hr : s.running = true) (hn : s.resp = none)
    (h : step s = .next t) (hk : t.resp = some (.failed k)) : t.active = false := by
  obtain ⟨t', ht', hx⟩ := step_running hr
  cases ht'.symm.trans h
  rcases hx.active_cases with ⟨ha, -⟩ | ⟨-, he | ⟨v, hv⟩⟩
  · exact ha
  · simp [he, hn] at hk
  · simp [hv] at hk

/-- A `resume` of an inactive engine answers `Failed(NotActive)` and does no more. -/
theorem step_resume_of_inactive {s : State} {l : List Word} {rest : List Command} (hr : s.running = false)
    (ha : s.active = false) (hp : s.pending = .resume l :: rest) :
    step s = .next { s with pending := rest }.failNotActive := by
  rw [step_of_pending hr hp]
  simp [runCommand, resume, ha]

/-- Settles O50: the clauses on what sets and what clears `ACTIVE` are the lemmas above; `reset`, `stop`, halt and the
guard failure have their next states written out. -/
theorem activeChangesOnlyAsStated : Obligations.ActiveChangesOnlyAsStated :=
  ⟨fun _ _ hr hp => ⟨_, step_of_pending hr hp, rfl⟩,
    fun _ _ => reset_of_step_sets_active,
    fun _ _ => step_clears_active,
    fun _ => ⟨_, rfl, rfl⟩,
    fun _ _ _ => inactive_of_step_fails,
    fun _ _ hr hp => ⟨_, step_of_pending hr hp, rfl⟩,
    fun _ _ _ hr ha hp => ⟨_, step_resume_of_inactive hr ha hp, rfl, rfl⟩⟩

end Sys2Proof.Machine
end

section
/-! SUPPORT. The baseline contents `Base` of the tape (spec/20_memory.md R50), what a reset leaves in a cell (R54) and
what stays in a cell that no write names (R52). -/

namespace Sys2Proof.Machine

/-! ### `Base` -/

theorem Memory.base_of_lt {p : List Word} {a : Nat} (h : a < p.length) : Memory.base p a = p[a] :=
  List.getD_eq_getElem p 0 h

theorem Memory.base_of_le {p : List Word} {a : Nat} (h : p.length ≤ a) : Memory.base p a = 0 :=
  List.getD_eq_default p 0 h

theorem Memory.base_eq_dite (p : List Word) (a : Nat) :
    Memory.base p a = if h : a < p.length then p[a] else 0 := by
  split
  case isTrue h => exact Memory.base_of_lt h
  case isFalse h => exact Memory.base_of_le (not_lt.1 h)

/-! ### Cells after a reset -/

@[simp] theorem State.resetOf_cell (cfg : Config) (a : Nat) :
    (State.resetOf cfg).cell a = Memory.base cfg.program a := rfl

@[simp] theorem State.doReset_cell (s : State) (a : Nat) : s.doReset.cell a = Memory.base s.cfg.program a := rfl

/-! ### Reads and writes -/

/-- A read is the address check and then the cell. -/
theorem memRead_eq_map (s : State) (a : Int) : memRead s a = (checkAddr s.cfg a).map s.cell := by
  unfold memRead
  cases checkAddr s.cfg a with
  | error k => rfl
  | ok n => rfl

/-- Writes to other cells, however many, keep a cell. -/
theorem State.foldl_store_cell_other {writes : List (Nat × Word)} {a : Nat} (h : ∀ w ∈ writes, w.1 ≠ a) (s : State) :
    (writes.foldl (fun s w => s.store w.1 w.2) s).cell a = s.cell a := by
  induction writes generalizing s with
  | nil => rfl
  | cons w ws ih =>
    obtain ⟨hw, hws⟩ := List.forall_mem_cons.1 h
    exact (ih hws (s.store w.1 w.2)).trans (s.store_cell_other w.2 hw.symm)

/-! ### The obligations -/

/-- Settles O13: the writes go to other cells, so the cell holds what the reset left there, `Base`. -/
theorem readOfCellNeverWritten : Obligations.ReadOfCellNeverWritten := by
  refine ⟨memRead_eq_map, fun cfg writes a h => ?_⟩
  calc (writes.foldl (fun s w => s.store w.1 w.2) (State.resetOf cfg)).cell a
      = (State.resetOf cfg).cell a := State.foldl_store_cell_other h _
    _ = Memory.base cfg.program a := State.resetOf_cell cfg a
    _ = _ := Memory.base_eq_dite cfg.program a

/-- Settles O36: after a reset every cell holds `Base` of the image, and a reset keeps the image. -/
theorem tapeResetReloadsImage : Obligations.TapeResetReloadsImage := by
  refine fun s a => ⟨fun h => ?_, fun h => ?_, ?_⟩
  · rw [State.doReset_cell, Memory.base_of_lt h]
  · rw [State.doReset_cell, Memory.base_of_le h]
  · simp only [State.doReset_cell, State.doReset_cfg]

end Sys2Proof.Machine
end

section
/-! SUPPORT. The decoder (spec/30_encoding.md R82, R83, R91, R94): the opcode map read in both directions, the digits of
the mode fields, what `decode` answers for a non-negative word, and the step of a run whose fetch finds no instruction.
-/

namespace Sys2Proof

/-! ### The opcode map -/

/-- The ten opcodes, in the order of their numbers. -/
def Opcode.all : List Opcode :=
  [.add, .multiply, .input, .output, .jumpIfTrue, .jumpIfFalse, .lessThan, .equals, .adjustRelativeBase, .halt]

theorem Opcode.mem_all (op : Opcode) : op ∈ Opcode.all := by
  cases op <;> decide

/-- The numbers that are opcodes (R91). -/
theorem Opcode.exists_number_eq_iff (n : Int) :
    (∃ op : Opcode, (op.number : Int) = n) ↔ n ∈ [1, 2, 3, 4, 5, 6, 7, 8, 9, 99] :=
  calc (∃ op : Opcode, (op.number : Int) = n)
      ↔ ∃ op ∈ Opcode.all, (op.number : Int) = n := by simp only [Opcode.mem_all, true_and]
    _ ↔ n ∈ Opcode.all.map fun op => (op.number : Int) := List.mem_map.symm

/-- The map is the inverse of the numbering: a number stands for the opcode that has it, and for no other. -/
theorem Opcode.ofNumber_eq_some_iff {n : Nat} {op : Opcode} : Opcode.ofNumber n = some op ↔ op.number = n := by
  constructor
  · intro h
    unfold Opcode.ofNumber at h
    split at h <;> cases h <;> rfl
  · rintro rfl
    cases op <;> rfl

/-! ### An opcode with its mode fields -/

@[simp] theorem Opcode.withModes_opcode (op : Opcode) (m1 m2 m3 : Mode) : (op.withModes m1 m2 m3).opcode = op := by
  cases op <;> rfl

/-- An instruction has as many of the three fields as its opcode has parameters. -/
theorem Opcode.withModes_modes (op : Opcode) (m1 m2 m3 : Mode) :
    (op.withModes m1 m2 m3).modes = [m1, m2, m3].take op.format.roles.length := by
  cases op <;> rfl

@[simp] theorem Mode.digit_ofDigit {d : Nat} (hd : d < 10) : (Mode.ofDigit d).digit = d := by
  match d with
  | 0 => rfl
  | 1 => rfl
  | 2 => rfl
  | n + 3 =>
    show 3 + n % 7 = n + 3
    omega

theorem modeField_digit (n k : Nat) : (modeField n k).digit = n / 10 ^ (k + 1) % 10 :=
  Mode.digit_ofDigit (Nat.mod_lt _ (by decide))

/-! ### The value of a non-negative word -/

theorem toNat_of_toInt_nonneg {w : Word} (h : 0 ≤ w.toInt) : (w.toNat : Int) = w.toInt :=
  (BitVec.toInt_eq_toNat_of_lt (BitVec.toInt_pos_iff.1 h)).symm

/-- The digit of a mode field in terms of the word's value (R83). -/
theorem modeField_digit_of_nonneg {w : Word} (h : 0 ≤ w.toInt) (k : Nat) :
    ((modeField w.toNat k).digit : Int) = w.toInt / 10 ^ (k + 1) % 10 := by
  rw [modeField_digit, ← toNat_of_toInt_nonneg h]
  norm_cast

/-! ### The decoder at a non-negative word -/

/-- The opcode field of a non-negative word stands for the opcode whose number is `w mod 100` (R82). -/
theorem ofNumber_field_eq_some_iff {w : Word} (h : 0 ≤ w.toInt) {op : Opcode} :
    Opcode.ofNumber (w.toNat % 100) = some op ↔ (op.number : Int) = w.toInt % 100 := by
  rw [Opcode.ofNumber_eq_some_iff, ← toNat_of_toInt_nonneg h]
  omega

theorem decode_of_opcode {w : Word} {op : Opcode} (h : 0 ≤ w.toInt) (hop : (op.number : Int) = w.toInt % 100) :
    decode w = .ok (op.withModes (modeField w.toNat 1) (modeField w.toNat 2) (modeField w.toNat 3)) := by
  simp only [decode, if_neg h.not_gt, (ofNumber_field_eq_some_iff h).2 hop]

theorem decode_of_no_opcode {w : Word} (h : 0 ≤ w.toInt) (hop : ¬ ∃ op : Opcode, (op.number : Int) = w.toInt % 100) :
    decode w = .error (.unknownOpcode w) := by
  have hnone : Opcode.ofNumber (w.toNat % 100) = none :=
    Option.eq_none_iff_forall_ne_some.2 fun op he => hop ⟨op, (ofNumber_field_eq_some_iff h).1 he⟩
  simp only [decode, if_neg h.not_gt, hnone]

/-- A non-negative word decodes to the opcode of its number with the three mode fields, and to nothing else. -/
theorem decode_eq_ok_iff {w : Word} {i : Instr} (h : 0 ≤ w.toInt) :
    decode w = .ok i ↔ ∃ op : Opcode, (op.number : Int) = w.toInt % 100 ∧
      op.withModes (modeField w.toNat 1) (modeField w.toNat 2) (modeField w.toNat 3) = i := by
  constructor
  · intro hd
    by_cases hop : ∃ op : Opcode, (op.number : Int) = w.toInt % 100
    · obtain ⟨op, hop⟩ := hop
      exact ⟨op, hop, Except.ok.inj ((decode_of_opcode h hop).symm.trans hd)⟩
    · cases (decode_of_no_opcode h hop).symm.trans hd
  · rintro ⟨op, hop, rfl⟩
    exact decode_of_opcode h hop

/-- A non-negative word decodes exactly when its opcode field is one of the ten numbers (R91). -/
theorem exists_decode_eq_ok_iff {w : Word} (h : 0 ≤ w.toInt) :
    (∃ i, decode w = .ok i) ↔ w.toInt % 100 ∈ [1, 2, 3, 4, 5, 6, 7, 8, 9, 99] := by
  rw [← Opcode.exists_number_eq_iff]
  constructor
  · rintro ⟨i, hi⟩
    obtain ⟨op, hop, -⟩ := (decode_eq_ok_iff h).1 hi
    exact ⟨op, hop⟩
  · rintro ⟨op, hop⟩
    exact ⟨_, decode_of_opcode h hop⟩

/-- Parameter `k + 1` of a decoded instruction has the mode of its field. -/
theorem eq_modeField_of_decode {w : Word} {i : Instr} {k : Nat} {m : Mode} (h : 0 ≤ w.toInt) (hd : decode w = .ok i)
    (hm : i.modes[k]? = some m) : m = modeField w.toNat (k + 1) := by
  obtain ⟨op, -, rfl⟩ := (decode_eq_ok_iff h).1 hd
  rw [Opcode.withModes_modes, List.getElem?_take] at hm
  split at hm
  case isFalse => cases hm
  case isTrue =>
    match k, hm with
    | 0, rfl => rfl
    | 1, rfl => rfl
    | 2, rfl => rfl

end Sys2Proof

namespace Sys2Proof.Machine

/-! ### A step that finds no instruction -/

theorem fetchDecode_of_decode_error {s : State} {e : DecodeError} (hv : s.ValidAddress s.ip)
    (hd : decode (s.cell s.ip.toNat) = .error e) : fetchDecode s = .error .unknownOpcode := by
  simp only [fetchDecode, memRead_of_valid hv, hd]

/-- A run at a valid address whose cell is no instruction takes UnknownOpcode. -/
theorem step_of_decode_error {s : State} {e : DecodeError} (hr : s.running = true) (hv : s.ValidAddress s.ip)
    (hd : decode (s.cell s.ip.toNat) = .error e) : step s = .next (s.raise .unknownOpcode) := by
  simp only [step, if_pos hr, fetchDecode_of_decode_error hv hd]

/-! ### The obligations -/

/-- Settles O4: an opcode has the number `w mod 100` or none has, and `decode` answers for either case. -/
theorem opcodeIsWordModHundred : Obligations.OpcodeIsWordModHundred := by
  refine ⟨fun w h => ?_, _, _, _, rfl⟩
  by_cases hop : ∃ op : Opcode, (op.number : Int) = w.toInt % 100
  · obtain ⟨op, hop⟩ := hop
    exact .inl ⟨_, decode_of_opcode h hop, by rw [Opcode.withModes_opcode, hop]⟩
  · exact .inr ⟨decode_of_no_opcode h hop, not_exists.1 hop⟩

/-- Settles O5: each field's digit is the word's, and a decoded parameter has the mode of its field. -/
theorem modeDigitsOfWord : Obligations.ModeDigitsOfWord := by
  refine ⟨fun w k _ h => modeField_digit_of_nonneg h k, fun w i k m h hd hm => ?_, rfl⟩
  rw [eq_modeField_of_decode h hd hm]
  exact modeField_digit_of_nonneg h (k + 1)

/-- Settles O8: the opcodes are the ten numbers; a word with another number is refused, and the step takes the fault. -/
theorem opcodeMapIsClosed : Obligations.OpcodeMapIsClosed := by
  refine ⟨fun w h => exists_decode_eq_ok_iff h, fun s hr hv h hno => ⟨?_, s.raise_active _⟩⟩
  rw [← Opcode.exists_number_eq_iff] at hno
  exact step_of_decode_error hr hv (decode_of_no_opcode h hno)

end Sys2Proof.Machine
end

section
/-! SUPPORT. The slot read and where `IP` stands after a parameter (spec/40_execute_cycle.md R114, R115, R119). -/

namespace Sys2Proof.Machine

/-- R114 in one equation: `MemRead(IP, 1)`, then `IP <- IP + 1`. -/
theorem slot_eq_map (s : State) : slot s = (memRead s s.ip).map (fun p => (p, s.setIp (s.ip + 1))) := by
  unfold slot
  cases memRead s s.ip <;> rfl

/-- Reading a parameter changes nothing but `IP`, which moves past the parameter's slot. -/
theorem eq_atSlot_of_readParam_ok {s t : State} {k : Nat} {m : Mode} {v : Word}
    (h : readParam m (s.atSlot k) = .ok (v, t)) : t = s.atSlot (k + 1) := by
  rcases s.sourceGives_or_faults k m with ⟨w, hw⟩ | ⟨f, hf⟩
  · cases (readParam_gives hw).symm.trans h
    rfl
  · cases (readParam_faults hf).symm.trans h

/-- Writing a parameter stores one cell and moves `IP` past the parameter's slot. -/
theorem exists_store_of_writeParam_ok {s t : State} {k : Nat} {m : Mode} {v : Word}
    (h : writeParam m v (s.atSlot k) = .ok t) : ∃ a, s.DestinationIs k m a ∧ t = (s.store a v).atSlot (k + 1) := by
  rcases s.destinationIs_or_faults k m with ⟨a, ha⟩ | ⟨f, hf⟩
  · cases (writeParam_of_destinationIs v ha).symm.trans h
    exact ⟨a, ha, rfl⟩
  · cases (writeParam_faults v hf).symm.trans h

/-- Settles O11: the slot read as one equation and at slot `k`, then both parameter accesses at slot 0. -/
theorem slotReadAdvancesIp : Obligations.SlotReadAdvancesIp := by
  refine fun s => ⟨slot_eq_map s, fun k hk => ?_, fun m v t h => ?_, fun m v t h => ?_⟩
  · rw [slot_eq_map, State.setIp_ip, memRead_of_valid ((s.validAddress_setIp _ _).2 hk)]
    rfl
  · rw [← s.atSlot_zero] at h
    exact eq_atSlot_of_readParam_ok h
  · rw [← s.atSlot_zero] at h
    obtain ⟨a, -, rfl⟩ := exists_store_of_writeParam_ok h
    rfl

end Sys2Proof.Machine
end

section
/-! SUPPORT. halt (spec/44_machine_control.md R201): its encoding, the step of a run that fetches an instruction, and
what an inactive block can do until its host issues `reset`. -/

namespace Sys2Proof

/-- `w mod 100 = 99` is enough for halt: it has no parameter, so the mode fields fall away. -/
theorem decode_eq_halt {w : Word} (h : 0 ≤ w.toInt) (hw : w.toInt % 100 = 99) : decode w = .ok .halt :=
  decode_of_opcode (op := .halt) h hw.symm

end Sys2Proof

namespace Sys2Proof.Machine

/-! ### A step that finds its instruction -/

theorem fetchDecode_of_decode_ok {s : State} {i : Instr} (hv : s.ValidAddress s.ip)
    (hd : decode (s.cell s.ip.toNat) = .ok i) : fetchDecode s = .ok (i, s.setIp (s.ip + 1)) := by
  simp only [fetchDecode, memRead_of_valid hv, hd]

/-- A run executes its next instruction with `IP` past the instruction's word. -/
theorem State.NextInstr.step_eq {s : State} {i : Instr} (h : s.NextInstr i) :
    step s = exec i (s.setIp (s.ip + 1)) := by
  obtain ⟨hr, hv, hd⟩ := h
  simp only [step, if_pos hr, fetchDecode_of_decode_ok hv hd]

/-! ### An inactive block -/

/-- Without a `reset` an inactive idle block stays one: a `resume` does not pass the guard, and `stop` and waiting
start no run. -/
theorem IdleShape.reset_or_inactive {u v : State} (h : IdleShape u v) (ha : u.active = false)
    (hr : u.running = false) :
    (∃ rest, u.pending = .reset :: rest) ∨ (v.active = false ∧ v.running = false) := by
  cases h with
  | reset rest hp => exact .inl ⟨rest, hp⟩
  | wait => exact .inr ⟨ha, hr⟩
  | stop => exact .inr ⟨rfl, hr⟩
  | notActive => exact .inr ⟨ha, hr⟩
  | start l rest hp hact => simp [ha] at hact

theorem step_reset_or_inactive {u v : State} (ha : u.active = false) (hr : u.running = false)
    (h : step u = .next v) :
    (∃ rest, u.pending = .reset :: rest) ∨ (v.active = false ∧ v.running = false) := by
  rcases step_cases h with ⟨hrun, -⟩ | ⟨-, hx⟩
  · simp [hr] at hrun
  · exact hx.reset_or_inactive ha hr

/-- An inactive idle block answers a `resume` with `Failed(NotActive)`. -/
theorem resp_of_step_resume_of_inactive {u v : State} {l : List Word} {rest : List Command}
    (ha : u.active = false) (hr : u.running = false) (h : step u = .next v) (hp : u.pending = .resume l :: rest) :
    v.resp = some (.failed .notActive) := by
  cases (step_resume_of_inactive hr ha hp).symm.trans h
  rfl

/-! ### The obligation -/

/-- Settles O26: a run's step at a halt is `returnHalted` with `IP` past the word; the inactive block that leaves stays
inactive, and fails each `resume`, by the lemmas above. -/
theorem haltEndsTheRun : Obligations.HaltEndsTheRun := by
  refine ⟨fun w => decode_eq_halt, rfl, fun s hr hv hd => ?_, fun u v ha hr h => ?_, fun s => rfl⟩
  · have hn : s.NextInstr .halt := ⟨hr, hv, hd⟩
    exact ⟨(s.setIp (s.ip + 1)).returnHalted, hn.step_eq, rfl, rfl, rfl, rfl, rfl, rfl, rfl⟩
  · rcases step_reset_or_inactive ha hr h with hreset | ⟨hva, hvr⟩
    · exact .inl hreset
    · exact .inr ⟨hva, hvr, fun l rest => resp_of_step_resume_of_inactive ha hr h⟩

end Sys2Proof.Machine
end

section
/-! SUPPORT. The guard failure (spec/60_exceptions.md R263). -/

namespace Sys2Proof.Machine

/-- Settles O42: the step is `failNotActive`, which writes the response alone, on the state less its first command; no
run starts, as none was executing before. -/
theorem guardFailureChangesNothing : Obligations.GuardFailureChangesNothing := by
  intro s l rest hr ha hp
  have hstep : step s = .next { s with pending := rest }.failNotActive := step_resume_of_inactive hr ha hp
  refine ⟨_, hstep, ?response, ?ip, ?rb, ?tape, ?written, ?active, ?fault, ?last, ?out, ?inputs, ?inIdx, ?running⟩
  case running => exact hr
  all_goals rfl

end Sys2Proof.Machine
end

section
/-! SUPPORT. The encoder and the decoder against each other (spec/30_encoding.md R80, R83, R86, R95): the digits of the
canonical word are the opcode and the modes, and an opcode with the modes of an instruction is that instruction. -/

namespace Sys2Proof

/-! ### Modes and their digits -/

theorem Mode.ofDigit_digit (m : Mode) : Mode.ofDigit m.digit = m := by
  cases m with
  | position => rfl
  | immediate => rfl
  | relative => rfl
  | noMode d => revert d; decide

/-- An instruction is its opcode with the modes of its parameters. -/
theorem Instr.opcode_withModes (i : Instr) :
    i.opcode.withModes (i.modes.getD 0 .position) (i.modes.getD 1 .position) (i.modes.getD 2 .position) = i := by
  cases i <;> rfl

/-- Only the mode fields of an opcode's parameters count (R86). -/
theorem Opcode.withModes_congr {op : Opcode} {f g : Nat → Mode}
    (h : ∀ k < op.format.roles.length, f k = g k) :
    op.withModes (f 0) (f 1) (f 2) = op.withModes (g 0) (g 1) (g 2) := by
  cases op with
  | add | multiply | lessThan | equals =>
    simp only [Opcode.withModes, h 0 (by decide), h 1 (by decide), h 2 (by decide)]
  | jumpIfTrue | jumpIfFalse => simp only [Opcode.withModes, h 0 (by decide), h 1 (by decide)]
  | input | output | adjustRelativeBase => simp only [Opcode.withModes, h 0 (by decide)]
  | halt => rfl

/-! ### The canonical word -/

/-- The canonical word of every instruction has five digits, the low two its opcode. -/
theorem Instr.wordFits (i : Instr) : Laws.WordFits.Statement i :=
  Laws.WordFits.of_digits (by cases i <;> rfl)

theorem encode_toInt (i : Instr) : (encode i).toInt = i.wordValue := by
  have hlt := i.wordFits.1
  rw [encode, BitVec.toInt_ofNat']
  exact Int.bmod_eq_of_le (by omega) (by omega)

theorem encode_toNat (i : Instr) : (encode i).toNat = i.wordValue := by
  have hlt := i.wordFits.1
  rw [encode, BitVec.toNat_ofNat, Nat.mod_eq_of_lt (by omega)]

/-- The digit of weight `10^(k + 2)` of the canonical word is that of the mode of parameter `k + 1` (R83, R95). -/
theorem Instr.decimalDigit_wordValue (i : Instr) {k : Nat} (hk : k < 3) :
    decimalDigit i.wordValue (k + 2) = (i.modes.getD k .position).digit := by
  have hop := Laws.WordFits.opcode_number_lt i.opcode
  have h1 := Laws.WordFits.digit_le (i.modes.getD 0 .position)
  have h2 := Laws.WordFits.digit_le (i.modes.getD 1 .position)
  have h3 := Laws.WordFits.digit_le (i.modes.getD 2 .position)
  unfold decimalDigit Instr.wordValue Instr.modeDigit
  match k, hk with
  | 0, _ => simp only [Nat.reduceSub, Nat.reduceAdd, Nat.reducePow]; omega
  | 1, _ => simp only [Nat.reduceSub, Nat.reduceAdd, Nat.reducePow]; omega
  | 2, _ => simp only [Nat.reduceSub, Nat.reduceAdd, Nat.reducePow]; omega

theorem modeField_encode (i : Instr) {k : Nat} (hk : k < 3) :
    modeField (encode i).toNat (k + 1) = i.modes.getD k .position := by
  rw [encode_toNat, modeField, i.decimalDigit_wordValue hk, Mode.ofDigit_digit]

/-- Settles O1: the canonical word's low two digits are the opcode, and its mode fields the modes. -/
theorem decodeEncodeRoundTrip : Obligations.DecodeEncodeRoundTrip := by
  intro i
  have hpos : 0 ≤ (encode i).toInt := by rw [encode_toInt]; omega
  have hop : (i.opcode.number : Int) = (encode i).toInt % 100 := by
    rw [encode_toInt, ← i.wordFits.2.1, Int.natCast_mod, Nat.cast_ofNat]
  rw [decode_of_opcode hpos hop, modeField_encode i (k := 0) (by decide), modeField_encode i (k := 1) (by decide),
    modeField_encode i (k := 2) (by decide), i.opcode_withModes]

/-- Settles O2: the first cell gives the instruction, and so how many of the cells after it are its parameters. -/
theorem cellsRoundTrip : Obligations.CellsRoundTrip := by
  intro i params rest hlen
  simp [encodeCells, decodeCells, decodeEncodeRoundTrip i, ← hlen]

/-- Settles O3: the canonical word is its value, which is the formula. -/
theorem canonicalWordFormula : Obligations.CanonicalWordFormula := by
  refine ⟨fun i _ => ?_, rfl⟩
  rw [encode_toInt]
  simp only [Instr.wordValue, Instr.modeDigit, Nat.cast_add, Nat.cast_mul, Nat.cast_ofNat, Nat.reduceSub]

/-- Settles O7: the two words have one opcode, and agree on the mode fields it has. -/
theorem unusedDigitsAreIgnored : Obligations.UnusedDigitsAreIgnored := by
  refine ⟨fun v w op hv hw hop hmod hdigits => ?_, rfl, rfl, rfl, rfl⟩
  have hfields : ∀ k < op.format.roles.length, modeField v.toNat (k + 1) = modeField w.toNat (k + 1) :=
    fun k hk => congrArg Mode.ofDigit (hdigits k hk)
  rw [decode_of_opcode hv ((ofNumber_field_eq_some_iff hv).1 hop),
    decode_of_opcode hw ((ofNumber_field_eq_some_iff hw).1 (hmod ▸ hop))]
  exact congrArg Except.ok (Opcode.withModes_congr hfields)

/-- Settles O9, word by word. -/
theorem decodesSpecWords : Obligations.DecodesSpecWords :=
  ⟨rfl, rfl, rfl, rfl, rfl, rfl, rfl, rfl, rfl, rfl, rfl, rfl⟩

theorem decode_of_neg {w : Word} (h : w.toInt < 0) : decode w = .error (.unknownOpcode w) := by
  simp only [decode, if_pos h]

end Sys2Proof

namespace Sys2Proof.Machine

/-! ### The step at the fetched word -/

theorem step_of_invalid_ip {s : State} (hr : s.running = true) (hv : ¬ s.ValidAddress s.ip) :
    step s = .next (s.raise .invalidAddress) := by
  simp only [step, if_pos hr, fetchDecode, memRead_of_invalid hv]

/-- Settles O6: a negative word is no instruction. -/
theorem negativeWordRaisesUnknownOpcode : Obligations.NegativeWordRaisesUnknownOpcode :=
  fun _ hr hv hneg => step_of_decode_error hr hv (decode_of_neg hneg)

/-- Settles O10: the fetch's two faults, and the instruction found. -/
theorem stepRunsFetchedInstr : Obligations.StepRunsFetchedInstr :=
  fun _ hr => ⟨step_of_invalid_ip hr, fun hv =>
    ⟨fun _ hd => step_of_decode_error hr hv hd, fun _ hd => State.NextInstr.step_eq ⟨hr, hv, hd⟩⟩⟩

end Sys2Proof.Machine
end

section
/-! SUPPORT. The address decoder behind a slot that was read, the address and capacity checks in the terms of Safety,
and the canonical tape as a function of what it reads (spec/20_memory.md R52 to R56, R70, spec/40_execute_cycle.md R115
to R119). -/

namespace Sys2Proof.Machine

/-! ### The address check -/

theorem State.validAddress_iff {s : State} {a : Int} :
    s.ValidAddress a ↔ ¬ (a < 0 ∨ ∃ limit, s.cfg.addrLimit = some limit ∧ (limit : Int) ≤ a) := by
  simp only [State.ValidAddress, not_or, not_exists, not_and, not_lt, not_le]

theorem State.not_validAddress_of_neg {s : State} {a : Int} (h : a < 0) : ¬ s.ValidAddress a :=
  fun hv => absurd hv.1 (not_le.2 h)

theorem fetchDecode_of_invalid {s : State} (h : ¬ s.ValidAddress s.ip) : fetchDecode s = .error .invalidAddress := by
  simp only [fetchDecode, memRead_of_invalid h]

/-- `slot_of_invalid` at the first slot. -/
theorem slot_of_invalid_ip {s : State} (h : ¬ s.ValidAddress s.ip) : slot s = .error .invalidAddress := by
  rw [slot_eq_map, memRead_of_invalid h]
  rfl

/-! ### Both parameter accesses after the slot read -/

section
variable {s s' : State} {p : Word} {m : Mode}

theorem rb_of_slot_ok (h : slot s = .ok (p, s')) : s'.rb = s.rb := by
  rw [slot_eq_map] at h
  cases hr : memRead s s.ip <;> rw [hr] at h <;> cases h
  rfl

theorem readParam_of_slot_error {k : FaultKind} (h : slot s = .error k) (m : Mode) : readParam m s = .error k := by
  simp only [readParam, h]

theorem writeParam_of_slot_error {k : FaultKind} (h : slot s = .error k) (m : Mode) (v : Word) :
    writeParam m v s = .error k := by
  simp only [writeParam, h]

theorem readParam_of_decode_error {k : FaultKind} (h : slot s = .ok (p, s'))
    (hd : decodeSource m s.rb p = .error k) : readParam m s = .error k := by
  rw [← rb_of_slot_ok h] at hd
  simp only [readParam, h, hd]

theorem readParam_of_decode_value {v : Word} (h : slot s = .ok (p, s'))
    (hd : decodeSource m s.rb p = .ok (.value v)) : readParam m s = .ok (v, s') := by
  rw [← rb_of_slot_ok h] at hd
  simp only [readParam, h, hd]

theorem readParam_of_decode_cell {a : Int} (h : slot s = .ok (p, s')) (hd : decodeSource m s.rb p = .ok (.cell a)) :
    readParam m s = (memRead s' a).map (fun v => (v, s')) := by
  rw [← rb_of_slot_ok h] at hd
  simp only [readParam, h, hd]
  cases memRead s' a <;> rfl

theorem writeParam_of_decode_error {k : FaultKind} (h : slot s = .ok (p, s'))
    (hd : decodeDestination m s.rb p = .error k) (v : Word) : writeParam m v s = .error k := by
  rw [← rb_of_slot_ok h] at hd
  simp only [writeParam, h, hd]

theorem writeParam_of_decode_ok {a : Int} (h : slot s = .ok (p, s')) (hd : decodeDestination m s.rb p = .ok a)
    (v : Word) : writeParam m v s = memWrite s' a v := by
  rw [← rb_of_slot_ok h] at hd
  simp only [writeParam, h, hd]

/-- A negative operand address faults in a read and in a write (R55). -/
theorem param_of_negative_address {a : Int} (h : slot s = .ok (p, s')) (ha : a < 0)
    (hsrc : decodeSource m s.rb p = .ok (.cell a)) (hdst : decodeDestination m s.rb p = .ok a) :
    readParam m s = .error .invalidAddress ∧ ∀ v, writeParam m v s = .error .invalidAddress := by
  have hv : ¬ s'.ValidAddress a := State.not_validAddress_of_neg ha
  refine ⟨?_, fun v => ?_⟩
  · rw [readParam_of_decode_cell h hsrc, memRead_of_invalid hv]
    rfl
  · rw [writeParam_of_decode_ok h hdst, memWrite_of_invalid v hv]

end

/-- Settles O12: the slot's fault, then mode by mode what the address decoder makes of the literal. -/
theorem threeModeAddressDecoder : Obligations.ThreeModeAddressDecoder := by
  refine fun s => ⟨fun k h => ⟨readParam_of_slot_error h, writeParam_of_slot_error h⟩, fun s' p h => ?_⟩
  exact ⟨readParam_of_decode_cell h rfl, readParam_of_decode_value h rfl, readParam_of_decode_cell h rfl,
    fun d => readParam_of_decode_error h rfl,
    fun v => ⟨writeParam_of_decode_ok h rfl v, writeParam_of_decode_error h rfl v, writeParam_of_decode_ok h rfl v,
      fun d => writeParam_of_decode_error h rfl v⟩,
    fun hneg => param_of_negative_address h hneg rfl rfl, fun hneg => param_of_negative_address h hneg rfl rfl⟩

/-- Settles O15: the check is `ValidAddress`, and each access makes it first. -/
theorem addressCheckOnEveryAccess : Obligations.AddressCheckOnEveryAccess := by
  refine fun s a => ⟨fun h => checkAddr_of_valid (State.validAddress_iff.2 h), fun h => ?_⟩
  have hv : ¬ s.ValidAddress a := fun hv => State.validAddress_iff.1 hv h
  refine ⟨checkAddr_of_invalid hv, memRead_of_invalid hv, fun v => memWrite_of_invalid v hv, ?_, fun m hslot ha => ?_⟩
  · rintro rfl
    have hs := slot_of_invalid_ip hv
    exact ⟨fetchDecode_of_invalid hv, hs, readParam_of_slot_error hs, writeParam_of_slot_error hs⟩
  · have hslot0 : s.ValidAddress (s.ip + (0 : Nat)) := by simpa using hslot
    have hread := readParam_faults (.inr ⟨hslot0, .inr ⟨a, ha, hv, rfl⟩⟩)
    have hwrite := fun v => writeParam_faults v (.inr ⟨hslot0, .inr (.inr ⟨a, ha, .inl ⟨hv, rfl⟩⟩)⟩)
    rw [State.atSlot_zero] at hread
    simp only [State.atSlot_zero] at hwrite
    exact ⟨hread, hwrite⟩

/-! ### The capacity check -/

theorem State.capacityExceededAt_iff {s : State} {a : Nat} :
    s.capacityExceededAt a = true ↔
      ∃ c, s.cfg.tapeCapacity = some c ∧ s.cfg.program.length ≤ a ∧ a ∉ s.written ∧ s.written.length = c := by
  unfold State.capacityExceededAt
  cases s.cfg.tapeCapacity with
  | none => simp
  | some c =>
    simp only [Bool.and_eq_true, Bool.not_eq_true', decide_eq_true_eq, List.contains_eq_mem, decide_eq_false_iff_not,
      Option.some.injEq, exists_eq_left', and_assoc]

/-- Settles O16: the capacity check is the rule's condition, and a write that passes it stores. -/
theorem capacityCheckAndGrowth : Obligations.CapacityCheckAndGrowth := by
  intro s a v hv
  rw [memWrite_of_valid v hv, Int.toNat_natCast, ← State.capacityExceededAt_iff]
  refine ⟨fun hc => if_pos hc, fun hc => ⟨s.store a v, if_neg hc, fun b => ?_⟩, rfl⟩
  rw [State.store_written, State.mem_writtenWith, or_comm]

/-! ### What is listed and what is read -/

theorem Memory.lookup_eq_none {m : Memory} {a : Nat} (h : ∀ c ∈ m, c.1 ≠ a) : Memory.lookup m a = none := by
  induction m with
  | nil => rfl
  | cons c m ih =>
    obtain ⟨hc, hm⟩ := List.forall_mem_cons.1 h
    rw [Memory.lookup, if_neg hc, ih hm]

theorem Memory.mem_of_lookup_eq_some {m : Memory} {a : Nat} {v : Word} (h : Memory.lookup m a = some v) :
    (a, v) ∈ m := by
  induction m with
  | nil => cases h
  | cons c m ih =>
    obtain ⟨b, u⟩ := c
    by_cases hb : b = a
    · rw [Memory.lookup, if_pos hb] at h
      cases h
      exact hb ▸ List.mem_cons_self
    · rw [Memory.lookup, if_neg hb] at h
      exact List.mem_cons_of_mem _ (ih h)

theorem Memory.read_of_unlisted {p : List Word} {m : Memory} {a : Nat} (h : ∀ c ∈ m, c.1 ≠ a) :
    Memory.read p m a = Memory.base p a := by
  rw [Memory.read, Memory.lookup_eq_none h, Option.getD_none]

/-- Writing 0 to an unlisted cell beyond the image changes no read. -/
theorem State.store_zero_cell {s : State} {n : Nat} (hn : s.cfg.program.length ≤ n) (h : ∀ c ∈ s.tape, c.1 ≠ n)
    (b : Nat) : (s.store n 0).cell b = s.cell b := by
  rw [State.store_cell]
  split
  case isFalse => rfl
  case isTrue hb =>
    have hcell : s.cell b = Memory.base s.cfg.program b := Memory.read_of_unlisted (hb ▸ h)
    rw [hcell, Memory.base_of_le (hb ▸ hn)]

/-- Settles O14: the two checks in their order, the store that follows them, and the store of 0. -/
theorem writeStoresOneCell : Obligations.WriteStoresOneCell := by
  refine fun s a v => ⟨memWrite_of_invalid v, fun hv hc => ?_, fun hv hc => ?_,
    fun n => ⟨s.store_cell_same n v, fun b hb => s.store_cell_other v hb, rfl⟩, fun t ht hlen hfree => ?_⟩
  · rw [memWrite_of_valid v hv, if_pos hc]
  · rw [memWrite_of_valid v hv, if_neg (Bool.eq_false_iff.1 hc)]
  · obtain ⟨-, -, rfl⟩ := memWrite_ok ht
    exact State.store_zero_cell hlen hfree

/-! ### A canonical tape is what it reads -/

theorem Memory.le_of_mem_risesFrom {m : Memory} {lo : Nat} (h : Memory.risesFrom lo m = true) :
    ∀ c ∈ m, lo ≤ c.1 := by
  induction m generalizing lo with
  | nil => exact nofun
  | cons c m ih =>
    simp only [Memory.risesFrom, Bool.and_eq_true, decide_eq_true_eq] at h
    exact List.forall_mem_cons.2 ⟨h.1, fun d hd => (Nat.le_succ_of_le h.1).trans (ih h.2 d hd)⟩

theorem Memory.lookup_of_lt_risesFrom {m : Memory} {lo a : Nat} (h : Memory.risesFrom lo m = true) (ha : a < lo) :
    Memory.lookup m a = none :=
  Memory.lookup_eq_none fun c hc => (ha.trans_le (Memory.le_of_mem_risesFrom h c hc)).ne'

/-- In a canonical tape an address is listed exactly when it reads otherwise than the baseline. -/
theorem Memory.lookup_eq_of_wf {p : List Word} {m : Memory} (h : Memory.wf p m = true) (a : Nat) :
    Memory.lookup m a = if Memory.read p m a = Memory.base p a then none else some (Memory.read p m a) := by
  cases hl : Memory.lookup m a with
  | none => simp [Memory.read, hl]
  | some v =>
    have hv : v ≠ Memory.base p a := (Memory.wf_iff.1 h).2 _ (Memory.mem_of_lookup_eq_some hl)
    simp [Memory.read, hl, hv]

/-- Rising tapes that list the same entries are the same list: the first entry of each lies at or below every other. -/
theorem Memory.eq_of_lookup_eq {m m' : Memory} {lo lo' : Nat} (h : Memory.risesFrom lo m = true)
    (h' : Memory.risesFrom lo' m' = true) (heq : ∀ a, Memory.lookup m a = Memory.lookup m' a) : m = m' := by
  induction m generalizing lo m' lo' with
  | nil =>
    cases m' with
    | nil => rfl
    | cons c' m' => simpa [Memory.lookup] using heq c'.1
  | cons c m ih =>
    cases m' with
    | nil => simpa [Memory.lookup] using heq c.1
    | cons c' m' =>
      obtain ⟨b, v⟩ := c
      obtain ⟨b', v'⟩ := c'
      simp only [Memory.risesFrom, Bool.and_eq_true, decide_eq_true_eq] at h h'
      have hb : b = b' := by
        rcases lt_trichotomy b b' with hlt | hb | hlt
        · simpa [Memory.lookup, hlt.ne', Memory.lookup_of_lt_risesFrom h'.2 (Nat.lt_succ_of_lt hlt)] using heq b
        · exact hb
        · simpa [Memory.lookup, hlt.ne', Memory.lookup_of_lt_risesFrom h.2 (Nat.lt_succ_of_lt hlt)] using heq b'
      subst hb
      have hv : v = v' := by simpa [Memory.lookup] using heq b
      have htail : ∀ a, Memory.lookup m a = Memory.lookup m' a := fun a => by
        by_cases ha : b = a
        · rw [← ha, Memory.lookup_of_lt_risesFrom h.2 (Nat.lt_succ_self b),
            Memory.lookup_of_lt_risesFrom h'.2 (Nat.lt_succ_self b)]
        · simpa [Memory.lookup, ha] using heq a
      rw [hv, ih h.2 h'.2 htail]

/-- Settles O17: what a canonical tape lists is a function of what it reads. -/
theorem tapesThatReadAlikeAreEqual : Obligations.TapesThatReadAlikeAreEqual := by
  intro p m m' h h' hread
  refine Memory.eq_of_lookup_eq (Memory.wf_iff.1 h).1 (Memory.wf_iff.1 h').1 fun a => ?_
  rw [Memory.lookup_eq_of_wf h, Memory.lookup_eq_of_wf h', hread a]

end Sys2Proof.Machine
end

section
/-! SUPPORT. `Result64` (spec/41_alu.md R140), and what each instruction does when its operands are good, and which
fault it raises when they are not (spec/40_execute_cycle.md R120). -/

namespace Sys2Proof.Machine

/-! ### `Result64` -/

theorem inInt64_iff {x : Int} : inInt64 x = true ↔ -(2 ^ 63) ≤ x ∧ x ≤ 2 ^ 63 - 1 := by
  simp only [inInt64, Bool.and_eq_true, decide_eq_true_eq]

theorem toInt_ofInt_of_inInt64 {x : Int} (h : inInt64 x = true) : (BitVec.ofInt 64 x).toInt = x := by
  obtain ⟨hlo, hhi⟩ := inInt64_iff.1 h
  rw [BitVec.toInt_ofInt]
  exact Int.bmod_eq_of_le (by omega) (by omega)

theorem result64_of_inInt64 (cfg : Config) {x : Int} (h : inInt64 x = true) :
    ∃ r, result64 cfg x = .ok r ∧ r.toInt = x :=
  ⟨BitVec.ofInt 64 x, by rw [result64, if_pos h], toInt_ofInt_of_inInt64 h⟩

section
variable {cfg : Config} {x : Int} (h : inInt64 x = false)
include h

theorem result64_of_fault (hp : cfg.overflowPolicy = .fault) : result64 cfg x = .error .arithmeticOverflow := by
  simp only [result64, h, hp, Bool.false_eq_true, if_false]

theorem result64_of_wrap (hp : cfg.overflowPolicy = .wrap) :
    ∃ r, result64 cfg x = .ok r ∧ r.toInt = (x + 2 ^ 63) % 2 ^ 64 - 2 ^ 63 := by
  refine ⟨_, by simp only [result64, h, hp, Bool.false_eq_true, if_false], toInt_ofInt_of_inInt64 ?_⟩
  rw [inInt64_iff]
  omega

end

/-- The computation raises no fault when its result is in range or wraps. -/
theorem result64_ok {cfg : Config} {x : Int} (h : inInt64 x = true ∨ cfg.overflowPolicy = .wrap) :
    ∃ r, result64 cfg x = .ok r := by
  cases hr : result64 cfg x with
  | ok r => exact ⟨r, rfl⟩
  | error k =>
    obtain ⟨-, hx, hp⟩ := result64_error hr
    simp [hx, hp] at h

/-- What holds of every `Result64` of `x` holds of the exact `x` in range, and of the wrapped `x` under `wrap`. -/
theorem exists_of_result64_ok {cfg : Config} {x : Int} {P : Word → Prop} (h : ∀ r, result64 cfg x = .ok r → P r) :
    (inInt64 x = true → ∃ r, r.toInt = x ∧ P r) ∧
    (inInt64 x = false → cfg.overflowPolicy = .wrap → ∃ r, r.toInt = (x + 2 ^ 63) % 2 ^ 64 - 2 ^ 63 ∧ P r) := by
  refine ⟨fun hx => ?_, fun hx hp => ?_⟩
  · obtain ⟨r, hr, hval⟩ := result64_of_inInt64 cfg hx
    exact ⟨r, hval, h r hr⟩
  · obtain ⟨r, hr, hval⟩ := result64_of_wrap hx hp
    exact ⟨r, hval, h r hr⟩

/-! ### Completion -/

theorem exec_add_stores {s : State} {m1 m2 m3 : Mode} {a b r : Word} {d : Nat} (ha : s.SourceGives 0 m1 a)
    (hb : s.SourceGives 1 m2 b) (hd : s.DestinationIs 2 m3 d) (hr : result64 s.cfg (a.toInt + b.toInt) = .ok r) :
    exec (.add m1 m2 m3) s = .next ((s.store d r).setIp (s.ip + 3)) :=
  aluOp_stores ha hb hr hd

theorem exec_multiply_stores {s : State} {m1 m2 m3 : Mode} {a b r : Word} {d : Nat} (ha : s.SourceGives 0 m1 a)
    (hb : s.SourceGives 1 m2 b) (hd : s.DestinationIs 2 m3 d) (hr : result64 s.cfg (a.toInt * b.toInt) = .ok r) :
    exec (.multiply m1 m2 m3) s = .next ((s.store d r).setIp (s.ip + 3)) :=
  aluOp_stores ha hb hr hd

/-- adjust-relative-base with a readable operand is `Result64` and then the new base, or its fault. -/
theorem exec_adjustRelativeBase_gives {s : State} {m : Mode} {a : Word} (ha : s.SourceGives 0 m a) :
    exec (.adjustRelativeBase m) s = withResult s (result64 s.cfg (s.rb.toInt + a.toInt)) fun r =>
      .next ((s.setIp (s.ip + 1)).setRb r) :=
  execAdjustRelativeBase_gives ha

theorem exec_adjustRelativeBase_sets {s : State} {m : Mode} {a r : Word} (ha : s.SourceGives 0 m a)
    (hr : result64 s.cfg (s.rb.toInt + a.toInt) = .ok r) :
    exec (.adjustRelativeBase m) s = .next ((s.setIp (s.ip + 1)).setRb r) := by
  rw [exec_adjustRelativeBase_gives ha, hr, withResult_ok]

theorem exec_adjustRelativeBase_raises {s : State} {m : Mode} {a : Word} {k : FaultKind} (ha : s.SourceGives 0 m a)
    (hr : result64 s.cfg (s.rb.toInt + a.toInt) = .error k) :
    exec (.adjustRelativeBase m) s = .next (s.raise k) := by
  rw [exec_adjustRelativeBase_gives ha, hr, withResult_error]

/-- input with a value left takes it and advances the index before the destination step (R160). -/
theorem exec_input_of_value {s : State} {v : Word} (hv : s.inputs[s.inIdx]? = some v) (m : Mode) :
    exec (.input m) s = writeResult m v ((s.setInIdx (s.inIdx + 1)).atSlot 0) := by
  rw [State.atSlot_zero]
  simp only [exec, execInput, hv]

theorem exec_output_gives {s : State} {m : Mode} {a : Word} (ha : s.SourceGives 0 m a) :
    exec (.output m) s = .next ((s.setIp (s.ip + 1)).returnOutput a) := by
  have h := withSource_gives ha fun a s1 => .next (s1.returnOutput a)
  rwa [State.atSlot_zero] at h

/-- Settles O18: in range, under `fault`, under `wrap`; and adjust-relative-base with the result or the fault. -/
theorem resultWidth : Obligations.ResultWidth := by
  refine ⟨fun cfg x => ⟨fun h => result64_of_inInt64 cfg (inInt64_iff.2 h), fun h => ?_⟩,
    fun s m a ha => ⟨fun r => exec_adjustRelativeBase_sets ha, fun k => exec_adjustRelativeBase_raises ha⟩⟩
  have hx : inInt64 x = false := Bool.eq_false_iff.2 (mt inInt64_iff.1 h)
  exact ⟨result64_of_fault hx, result64_of_wrap hx⟩

/-- Settles O19: the sum's `Result64` is stored. -/
theorem addStoresSum : Obligations.AddStoresSum :=
  fun _ _ _ _ _ _ _ ha hb hd => exists_of_result64_ok fun _ => exec_add_stores ha hb hd

/-- Settles O20: the product's `Result64` is stored. -/
theorem multiplyStoresProduct : Obligations.MultiplyStoresProduct :=
  fun _ _ _ _ _ _ _ ha hb hd => exists_of_result64_ok fun _ => exec_multiply_stores ha hb hd

theorem flagWord_decide (P : Prop) [Decidable P] : flagWord (decide P) = if P then 1 else 0 := by
  simp only [flagWord, decide_eq_true_eq]

/-- Settles O21: both conditions are of the signed values, and their flag word is stored. -/
theorem compareStoresOneOrZero : Obligations.CompareStoresOneOrZero := by
  intro s m1 m2 m3 a b d ha hb hd
  rw [← flagWord_decide, ← flagWord_decide]
  exact ⟨aluOp_stores ha hb rfl hd, aluOp_stores ha hb rfl hd⟩

/-- Settles O22: the destination is written in the state with the index advanced, which names the same cell. -/
theorem inputStoresNextValue : Obligations.InputStoresNextValue := by
  intro s m v d hv hd
  have hd' : (s.setInIdx (s.inIdx + 1)).DestinationIs 0 m d := hd
  rw [exec_input_of_value hv]
  exact writeResult_of_destinationIs v hd'

/-- Settles O23: the run returns the operand from the state with `IP` past the instruction. -/
theorem outputSuspends : Obligations.OutputSuspends :=
  fun _ _ _ ha => ⟨_, exec_output_gives ha, rfl, rfl, rfl, rfl, rfl, rfl, rfl⟩

/-- Settles O24: both operands are read, then `IP` is chosen by the condition. -/
theorem jumpsGoToTarget : Obligations.JumpsGoToTarget := by
  intro s m1 m2 c target hc ht
  have hjt := jumpWhen_jumps (taken := isNonzero) hc ht
  have hjf := jumpWhen_jumps (taken := fun cond => !isNonzero cond) hc ht
  by_cases h0 : c.toInt = 0
  · simp only [isNonzero, h0, ne_eq, not_true, decide_false, Bool.not_false, Bool.false_eq_true, if_false,
      if_true] at hjt hjf ⊢
    exact ⟨hjt, hjf⟩
  · simp only [isNonzero, h0, ne_eq, not_false_eq_true, decide_true, Bool.not_true, Bool.false_eq_true, if_false,
      if_true] at hjt hjf ⊢
    exact ⟨hjt, hjf⟩

/-- Settles O25: the sum's `Result64` is the new base. -/
theorem adjustAddsToRelativeBase : Obligations.AdjustAddsToRelativeBase :=
  fun _ _ _ ha => exists_of_result64_ok fun _ => exec_adjustRelativeBase_sets ha

/-! ### Faults in their order -/

/-- The instructions of format F3 are the ALU operation, each with its own computation. -/
theorem exec_alu {i : Instr} {m1 m2 m3 : Mode}
    (hi : i ∈ [Instr.add m1 m2 m3, .multiply m1 m2 m3, .lessThan m1 m2 m3, .equals m1 m2 m3]) (s : State) :
    ∃ f, (∀ a b k, f a b = .error k → k = .arithmeticOverflow) ∧ exec i s = aluOp f m1 m2 m3 s := by
  simp only [List.mem_cons, List.not_mem_nil, or_false] at hi
  obtain rfl | rfl | rfl | rfl := hi
  · exact ⟨_, fun _ _ _ h => (result64_error h).1, rfl⟩
  · exact ⟨_, fun _ _ _ h => (result64_error h).1, rfl⟩
  · exact ⟨fun a b => .ok (flagWord (isLess a b)), nofun, rfl⟩
  · exact ⟨fun a b => .ok (flagWord (isEqual a b)), nofun, rfl⟩

/-- The jumps are the jump operation, each with its own condition. -/
theorem exec_jump {i : Instr} {m1 m2 : Mode} (hi : i ∈ [Instr.jumpIfTrue m1 m2, .jumpIfFalse m1 m2]) (s : State) :
    ∃ taken : Word → Bool, exec i s = jumpWhen taken m1 m2 s ∧ ∀ c, taken c = true →
      ((i = .jumpIfTrue m1 m2 ∧ c.toInt ≠ 0) ∨ (i = .jumpIfFalse m1 m2 ∧ c.toInt = 0)) := by
  simp only [List.mem_cons, List.not_mem_nil, or_false] at hi
  obtain rfl | rfl := hi
  · exact ⟨_, rfl, fun c hc => .inl ⟨rfl, by simpa [isNonzero] using hc⟩⟩
  · exact ⟨_, rfl, fun c hc => .inr ⟨rfl, by simpa [isNonzero] using hc⟩⟩

/-- Settles O27: `aluOp_faults` at each place of the order. -/
theorem aluFaultPriority : Obligations.AluFaultPriority := by
  refine fun s m1 m2 m3 k => ⟨fun h i hi => ?source1, fun a ha h i hi => ?source2, fun a b ha hb =>
    ⟨fun hx hp => ?sum, fun hx hp => ?product, fun hd => ⟨fun hx => ?add, fun hx => ?multiply, ?lessThan, ?equals⟩⟩⟩
  case source1 =>
    obtain ⟨f, -, hf⟩ := exec_alu hi s
    exact hf.trans (aluOp_faults (.inl h))
  case source2 =>
    obtain ⟨f, -, hf⟩ := exec_alu hi s
    exact hf.trans (aluOp_faults (.inr ⟨a, ha, .inl h⟩))
  case sum | product => exact aluOp_faults (.inr ⟨a, ha, .inr ⟨b, hb, .inl (result64_of_fault hx hp)⟩⟩)
  case add | multiply =>
    obtain ⟨r, hr⟩ := result64_ok hx
    exact aluOp_faults (.inr ⟨a, ha, .inr ⟨b, hb, .inr ⟨r, hr, hd⟩⟩⟩)
  case lessThan | equals => exact aluOp_faults (.inr ⟨a, ha, .inr ⟨b, hb, .inr ⟨_, rfl, hd⟩⟩⟩)

/-- The instructions whose first parameter is a source of their own raise its fault first. -/
theorem exec_source_faults {s : State} {m1 m2 : Mode} {k : FaultKind} (h : s.SourceFaults 0 m1 k) {i : Instr}
    (hi : i ∈ [Instr.output m1, .adjustRelativeBase m1, .jumpIfTrue m1 m2, .jumpIfFalse m1 m2]) :
    exec i s = .next (s.raise k) := by
  have hfault := withSource_faults h
  rw [State.atSlot_zero] at hfault
  simp only [List.mem_cons, List.not_mem_nil, or_false] at hi
  obtain rfl | rfl | rfl | rfl := hi
  all_goals exact hfault _

/-- A jump reads its target whether taken or not (D8). -/
theorem exec_jump_target_faults {s : State} {m1 m2 : Mode} {c : Word} {k : FaultKind} (hc : s.SourceGives 0 m1 c)
    (h : s.SourceFaults 1 m2 k) {i : Instr} (hi : i ∈ [Instr.jumpIfTrue m1 m2, .jumpIfFalse m1 m2]) :
    exec i s = .next (s.raise k) := by
  obtain ⟨taken, hjump, -⟩ := exec_jump hi s
  have hgives := withSource_gives hc
  rw [State.atSlot_zero] at hgives
  rw [hjump, jumpWhen, hgives]
  exact withSource_faults h _

/-- Settles O28: input's two faults, then those of the sources and of the new base. -/
theorem otherFaultPriority : Obligations.OtherFaultPriority := by
  refine fun s m1 m2 k => ⟨fun h => ?_, fun h hd => ?_, fun h i hi => exec_source_faults h hi,
    fun c hc h i hi => exec_jump_target_faults hc h hi,
    fun a ha hx hp => exec_adjustRelativeBase_raises ha (result64_of_fault hx hp)⟩
  · simp only [exec, execInput, List.getElem?_eq_none h]
  · have hd' : (s.setInIdx (s.inIdx + 1)).DestinationFaults 0 m1 k := hd
    rw [exec_input_of_value (List.getElem?_eq_getElem h)]
    exact writeResult_faults _ hd'

end Sys2Proof.Machine
end

section
/-! SUPPORT. The invariants of Safety (spec/10_state.md section 10, spec/45_host_interface.md sections 1 and 2,
spec/60_exceptions.md R262, R263, R269): each holds after `reset` and at power-on, and each shape of a step keeps it. -/

namespace Sys2Proof.Machine

/-! ### The tape invariant -/

/-- The tape invariant speaks of the parameters, the tape and `W` alone. -/
theorem State.TapeInv.congr {s t : State} (h : s.TapeInv) (hcfg : t.cfg = s.cfg) (htape : t.tape = s.tape)
    (hwritten : t.written = s.written) : t.TapeInv := by
  obtain ⟨h1, h2, h3, h4, h5, h6⟩ := h
  rw [← hcfg] at h1 h2 h3 h4 h5 h6
  rw [← htape] at h1 h3 h4
  rw [← hwritten] at h2 h3 h5 h6
  exact ⟨h1, h2, h3, h4, h5, h6⟩

/-- The empty tape and the empty `W` meet it: nothing is listed. -/
theorem State.tapeInv_of_nil {s : State} (htape : s.tape = []) (hwritten : s.written = []) : s.TapeInv where
  canonical := by rw [htape]; exact Memory.wf_nil _
  writtenRises := by rw [hwritten]; rfl
  grownIsWritten := by rw [htape]; exact nofun
  tapeBelowLimit := by rw [htape]; exact fun _ _ => nofun
  writtenBelowLimit := by rw [hwritten]; exact fun _ _ => nofun
  withinCapacity := by rw [hwritten]; exact fun n _ => Nat.zero_le n

/-- A store lists its own address at most. -/
theorem State.mem_store_tape {s : State} {a : Nat} {v : Word} {c : Nat × Word} (h : c ∈ (s.store a v).tape) :
    c ∈ s.tape ∨ c.1 = a := by
  rcases Memory.mem_write.1 h with ⟨hc, -⟩ | ⟨rfl, -⟩
  · exact .inl hc
  · exact .inr rfl

theorem State.writtenWith_rises {s : State} {a : Nat}
    (h : addressesRiseFrom s.cfg.program.length s.written = true) :
    addressesRiseFrom s.cfg.program.length (s.writtenWith a) = true := by
  unfold State.writtenWith
  split
  case isTrue ha => exact addressesRiseFrom_insertAddress ha h
  case isFalse => exact h

/-- A write that passes the capacity check leaves `W` within the capacity: it adds an address only below it. -/
theorem State.length_writtenWith_le {s : State} {a n : Nat}
    (hrises : addressesRiseFrom s.cfg.program.length s.written = true) (hcap : s.cfg.tapeCapacity = some n)
    (hle : s.written.length ≤ n) (hc : s.capacityExceededAt a = false) : (s.writtenWith a).length ≤ n := by
  unfold State.writtenWith
  split
  case isFalse => exact hle
  case isTrue ha =>
    by_cases hmem : a ∈ s.written
    · rwa [insertAddress_of_mem hrises hmem]
    · have hne : s.written.length ≠ n := fun he =>
        Bool.eq_false_iff.1 hc (State.capacityExceededAt_iff.2 ⟨n, hcap, ha, hmem, he⟩)
      exact (length_insertAddress_le s.written a).trans (lt_of_le_of_ne hle hne)

/-- A store that passed both checks keeps the invariant. -/
theorem State.TapeInv.store {s : State} (h : s.TapeInv) {a : Nat} (v : Word) (hv : s.ValidAddress a)
    (hc : s.capacityExceededAt a = false) : (s.store a v).TapeInv where
  canonical := Memory.wf_write a v h.canonical
  writtenRises := State.writtenWith_rises h.writtenRises
  grownIsWritten c hmem hle := by
    refine State.mem_writtenWith.2 ?_
    rcases State.mem_store_tape hmem with hold | hnew
    · exact .inr (h.grownIsWritten c hold hle)
    · exact .inl ⟨hnew, hnew ▸ hle⟩
  tapeBelowLimit limit hl c hmem := by
    rcases State.mem_store_tape hmem with hold | hnew
    · exact h.tapeBelowLimit limit hl c hold
    · exact hnew ▸ Int.ofNat_lt.1 (hv.2 limit hl)
  writtenBelowLimit limit hl b hmem := by
    rcases State.mem_writtenWith.1 hmem with ⟨rfl, -⟩ | hold
    · exact Int.ofNat_lt.1 (hv.2 limit hl)
    · exact h.writtenBelowLimit limit hl b hold
  withinCapacity n hcap := State.length_writtenWith_le h.writtenRises hcap (h.withinCapacity n hcap) hc

theorem ExecShape.keeps_tapeInv {s t : State} (h : ExecShape s t) (hs : s.TapeInv) : t.TapeInv := by
  cases h with
  | store d r ip hd hc => exact (hs.store r hd hc).congr rfl rfl rfl
  | inputStore d r ip hd hc => exact (hs.store r hd hc).congr rfl rfl rfl
  | fault | inputFault | goto | output | adjust | halt => exact hs.congr rfl rfl rfl

theorem IdleShape.keeps_tapeInv {s t : State} (h : IdleShape s t) (hs : s.TapeInv) : t.TapeInv := by
  cases h with
  | reset => exact State.tapeInv_of_nil rfl rfl
  | wait | stop | notActive | start => exact hs.congr rfl rfl rfl

/-- Settles O56: only the two storing shapes touch what the invariant speaks of, and `reset` empties it. -/
theorem tapeInvariantIsKept : Obligations.TapeInvariantIsKept := by
  intro s t hs h
  rcases step_cases h with ⟨-, hx⟩ | ⟨-, hx⟩
  · exact hx.keeps_tapeInv hs
  · exact hx.keeps_tapeInv hs

/-! ### The call invariant -/

theorem tooManyInputs_eq_false_iff {cfg : Config} {l : List Word} :
    tooManyInputs cfg l = false ↔ ∀ n, cfg.maxInputs = some n → l.length ≤ n := by
  unfold tooManyInputs
  cases cfg.maxInputs <;> simp

/-- Outside a run without inputs nothing is asked of a call. -/
theorem State.callInv_of_idle {s : State} (hr : s.running = false) (hi : s.inputs = []) : s.CallInv where
  runIsActive h := by simp [hr] at h
  runHasNoResponse h := by simp [hr] at h
  inputsOnlyInRun _ := hi
  indexInRange h := by simp [hr] at h
  inputsAllowed n _ := by simp [hi]

/-- A run that goes on keeps its call but for the index. -/
theorem State.CallInv.of_run {s t : State} (h : s.CallInv) (hr : s.running = true) (hcfg : t.cfg = s.cfg)
    (ha : t.active = s.active) (hresp : t.resp = s.resp) (hrun : t.running = s.running) (hin : t.inputs = s.inputs)
    (hidx : t.inIdx ≤ s.inputs.length) : t.CallInv where
  runIsActive _ := ha.trans (h.runIsActive hr)
  runHasNoResponse _ := hresp.trans (h.runHasNoResponse hr)
  inputsOnlyInRun hf := by simp [hrun, hr] at hf
  indexInRange _ := by rwa [hin]
  inputsAllowed n hn := by
    rw [hcfg] at hn
    rw [hin]
    exact h.inputsAllowed n hn

theorem ExecShape.keeps_callInv {s t : State} (h : ExecShape s t) (hr : s.running = true) (hs : s.CallInv) :
    t.CallInv := by
  cases h with
  | store | goto | adjust => exact hs.of_run hr rfl rfl rfl rfl rfl (hs.indexInRange hr)
  | inputStore d r ip hd hc hlt => exact hs.of_run hr rfl rfl rfl rfl rfl hlt
  | fault | inputFault | output | halt => exact State.callInv_of_idle rfl rfl

theorem IdleShape.keeps_callInv {s t : State} (h : IdleShape s t) (hr : s.running = false) (hs : s.CallInv) :
    t.CallInv := by
  have hin : s.inputs = [] := hs.inputsOnlyInRun hr
  cases h with
  | start l rest hp ha hl =>
    exact ⟨fun _ => ha, fun _ => rfl, nofun, fun _ => Nat.zero_le _, tooManyInputs_eq_false_iff.1 hl⟩
  | reset => exact State.callInv_of_idle rfl rfl
  | wait | stop | notActive => exact State.callInv_of_idle hr hin

/-- Settles O57: a step of a run keeps the call or ends it, and only an allowed `resume` starts one. -/
theorem callInvariantIsKept : Obligations.CallInvariantIsKept := by
  intro s t hs h
  rcases step_cases h with ⟨hr, hx⟩ | ⟨hr, hx⟩
  · exact hx.keeps_callInv hr hs
  · exact hx.keeps_callInv hr hs

/-! ### The latch invariant -/

/-- Where the latches and `ACTIVE` stay, only the response has to agree anew; a run in progress has none. -/
theorem State.LatchInv.of_run {s t : State} (h : s.LatchInv) (hlast : t.last = s.last) (hfault : t.fault = s.fault)
    (hout : t.out = s.out) (ha : t.active = s.active) (hresp : t.resp = none) : t.LatchInv where
  failedHasCode := by rw [hlast, hfault]; exact h.failedHasCode
  noGuardCode := by rw [hfault]; exact h.noGuardCode
  endedIsInactive := by rw [hlast, ha]; exact h.endedIsInactive
  outIsZero := by rw [hlast, hout]; exact h.outIsZero
  outputAgrees v hv := by simp [hresp] at hv
  haltAgrees hv := by simp [hresp] at hv
  faultAgrees k hv := by simp [hresp] at hv

/-- The fault entry: `OUT` is free after a fault, and the code is never a guard's. -/
theorem State.latchInv_raise (s : State) {k : FaultKind} (hk : k.ofRun) : (s.raise k).LatchInv where
  failedHasCode := by simp
  noGuardCode := ⟨fun h => hk.1 (Option.some.inj h), fun h => hk.2 (Option.some.inj h)⟩
  endedIsInactive _ := rfl
  outIsZero := by simp
  outputAgrees := nofun
  haltAgrees := nofun
  faultAgrees _ h _ := by simpa using h

theorem State.latchInv_returnOutput {s : State} (ha : s.active = true) (v : Word) : (s.returnOutput v).LatchInv where
  failedHasCode := by simp
  noGuardCode := ⟨nofun, nofun⟩
  endedIsInactive := by simp
  outIsZero := by simp
  outputAgrees w h := ⟨rfl, by simpa using h, ha⟩
  haltAgrees := nofun
  faultAgrees := nofun

theorem State.latchInv_returnHalted (s : State) : s.returnHalted.LatchInv where
  failedHasCode := by simp
  noGuardCode := ⟨nofun, nofun⟩
  endedIsInactive _ := rfl
  outIsZero _ := rfl
  outputAgrees := nofun
  haltAgrees _ := rfl
  faultAgrees := nofun

/-- Cleared latches with the response `Done` or none. -/
theorem State.latchInv_of_cleared {s : State} (hlast : s.last = .none) (hfault : s.fault = none) (hout : s.out = 0)
    (hresp : s.resp = some .done ∨ s.resp = none) : s.LatchInv where
  failedHasCode := by simp [hlast, hfault]
  noGuardCode := by simp [hfault]
  endedIsInactive := by simp [hlast]
  outIsZero _ := hout
  outputAgrees v h := by simp [h] at hresp
  haltAgrees h := by simp [h] at hresp
  faultAgrees k h := by simp [h] at hresp

theorem ExecShape.keeps_latchInv {s t : State} (h : ExecShape s t) (ha : s.active = true) (hresp : s.resp = none)
    (hs : s.LatchInv) : t.LatchInv := by
  cases h with
  | fault k hk => exact s.latchInv_raise hk
  | inputFault k hk => exact State.latchInv_raise _ hk
  | output v ip => exact State.latchInv_returnOutput (s := s.setIp ip) ha v
  | halt ip => exact State.latchInv_returnHalted _
  | store | inputStore | goto | adjust => exact hs.of_run rfl rfl rfl rfl hresp

theorem IdleShape.keeps_latchInv {s t : State} (h : IdleShape s t) (hs : s.LatchInv) : t.LatchInv := by
  cases h with
  | wait => exact hs
  | reset => exact State.latchInv_of_cleared rfl rfl rfl (.inl rfl)
  | start => exact hs.of_run rfl rfl rfl rfl rfl
  | stop => exact ⟨hs.failedHasCode, hs.noGuardCode, fun _ => rfl, hs.outIsZero, nofun, nofun, nofun⟩
  | notActive =>
    exact ⟨hs.failedHasCode, hs.noGuardCode, hs.endedIsInactive, hs.outIsZero, nofun, nofun,
      fun k hk hne => absurd (by simpa using hk.symm) hne⟩

/-- Settles O58: a run is active and unanswered, so each way it ends sets latches and response together; of the host's
commands `reset` clears both, and the others answer nothing the latches would have to follow. -/
theorem latchInvariantIsKept : Obligations.LatchInvariantIsKept := by
  intro s t hcall hs h
  rcases step_cases h with ⟨hr, hx⟩ | ⟨-, hx⟩
  · exact hx.keeps_latchInv (hcall.runIsActive hr) (hcall.runHasNoResponse hr) hs
  · exact hx.keeps_latchInv hs

/-- Settles O59: nothing is listed, no run is in progress, and the latches are clear. -/
theorem invariantsHoldAfterReset : Obligations.InvariantsHoldAfterReset :=
  fun _ => ⟨State.tapeInv_of_nil rfl rfl, State.callInv_of_idle rfl rfl,
    State.latchInv_of_cleared rfl rfl rfl (.inl rfl), State.tapeInv_of_nil rfl rfl, State.callInv_of_idle rfl rfl,
    State.latchInv_of_cleared rfl rfl rfl (.inr rfl)⟩

end Sys2Proof.Machine
end

section
/-! SUPPORT. What each instruction leaves unchanged, read off the shapes of the instructions (spec/40_execute_cycle.md
section 3, spec/60_exceptions.md R268), and from it the rules on `RB`, `IP` and the input index over every step. -/

namespace Sys2Proof.Machine

/-! ### The fault entry -/

/-- A run that held no response and now answers `Failed(k)` is in the fault entry of `k`, before or after input
advanced the index. -/
theorem ExecShape.eq_raise_of_failed {s t : State} {k : FaultKind} (h : ExecShape s t) (hn : s.resp = none)
    (hk : t.resp = some (.failed k)) : t = s.raise k ∨ t = (s.setInIdx (s.inIdx + 1)).raise k := by
  cases h with
  | fault k' =>
    cases hk
    exact .inl rfl
  | inputFault k' =>
    cases hk
    exact .inr rfl
  | output | halt => cases hk
  | store | inputStore | goto | adjust => cases hn.symm.trans hk

/-- The same of a step of a run. -/
theorem eq_raise_of_step_failed {s t : State} {k : FaultKind} (hr : s.running = true) (hn : s.resp = none)
    (h : step s = .next t) (hk : t.resp = some (.failed k)) :
    t = s.raise k ∨ t = (s.setInIdx (s.inIdx + 1)).raise k := by
  obtain ⟨t', ht', hx⟩ := step_running hr
  cases ht'.symm.trans h
  exact hx.eq_raise_of_failed hn hk

theorem State.raise_faultCode (s : State) (k : FaultKind) : (s.raise k).faultCode = k.code := rfl

/-- Settles O29: the fault entry field by field; a step that fails leaves one of the two fault entries. -/
theorem faultEntryIsPrecise : Obligations.FaultEntryIsPrecise := by
  refine ⟨fun s k => ⟨rfl, rfl, s.raise_faultCode k, rfl, rfl, rfl, fun _ => rfl, rfl, rfl, rfl, rfl⟩,
    fun s t k hr hn h hk => ?_⟩
  obtain rfl | rfl := eq_raise_of_step_failed hr hn h hk
  · exact ⟨rfl, rfl, rfl, State.raise_faultCode _ k, rfl, fun _ => rfl, rfl, rfl, rfl, rfl⟩
  · exact ⟨rfl, rfl, rfl, State.raise_faultCode _ k, rfl, fun _ => rfl, rfl, rfl, rfl, rfl⟩

/-! ### What an instruction can leave, by its opcode -/

/-- The instructions by the operation that runs them. -/
inductive Operation : Instr → Prop where
  | alu {i : Instr} (m1 m2 m3 : Mode)
      (hi : i ∈ [Instr.add m1 m2 m3, .multiply m1 m2 m3, .lessThan m1 m2 m3, .equals m1 m2 m3]) : Operation i
  | jump {i : Instr} (m1 m2 : Mode) (hi : i ∈ [Instr.jumpIfTrue m1 m2, .jumpIfFalse m1 m2]) : Operation i
  | input (m : Mode) : Operation (.input m)
  | output (m : Mode) : Operation (.output m)
  | adjust (m : Mode) : Operation (.adjustRelativeBase m)
  | halt : Operation .halt

/-- Every instruction is run by one of the six operations. -/
theorem operation (i : Instr) : Operation i := by
  cases i with
  | add m1 m2 m3 | multiply m1 m2 m3 | lessThan m1 m2 m3 | equals m1 m2 m3 => exact .alu m1 m2 m3 (by simp)
  | jumpIfTrue m1 m2 | jumpIfFalse m1 m2 => exact .jump m1 m2 (by simp)
  | input m => exact .input m
  | output m => exact .output m
  | adjustRelativeBase m => exact .adjust m
  | halt => exact .halt

section
variable {s t : State}

theorem exec_alu_next {i : Instr} {m1 m2 m3 : Mode}
    (hi : i ∈ [Instr.add m1 m2 m3, .multiply m1 m2 m3, .lessThan m1 m2 m3, .equals m1 m2 m3])
    (h : exec i s = .next t) :
    (∃ k, (s.SourceFaults 0 m1 k ∨ s.SourceFaults 1 m2 k ∨ k = .arithmeticOverflow ∨ s.DestinationFaults 2 m3 k) ∧
      t = s.raise k) ∨
      ∃ d r, s.DestinationIs 2 m3 d ∧ t = (s.store d r).setIp (s.ip + 3) := by
  obtain ⟨f, hf, hexec⟩ := exec_alu hi s
  rw [hexec] at h
  rcases aluOp_cases f m1 m2 m3 s with ⟨k, hk, hnext⟩ | ⟨a, b, r, d, -, -, -, hd, hnext⟩
  · cases hnext.symm.trans h
    refine .inl ⟨k, ?_, rfl⟩
    rcases hk with hk | hk | ⟨a, b, hk⟩ | hk
    · exact .inl hk
    · exact .inr (.inl hk)
    · exact .inr (.inr (.inl (hf a b k hk)))
    · exact .inr (.inr (.inr hk))
  · cases hnext.symm.trans h
    exact .inr ⟨d, r, hd, rfl⟩

theorem exec_jump_next {i : Instr} {m1 m2 : Mode} (hi : i ∈ [Instr.jumpIfTrue m1 m2, .jumpIfFalse m1 m2])
    (h : exec i s = .next t) :
    (∃ k, (s.SourceFaults 0 m1 k ∨ s.SourceFaults 1 m2 k) ∧ t = s.raise k) ∨
      ∃ c target, s.SourceGives 0 m1 c ∧ s.SourceGives 1 m2 target ∧
        (t = s.setIp (s.ip + 2) ∨ (t = s.setIp target.toInt ∧
          ((i = .jumpIfTrue m1 m2 ∧ c.toInt ≠ 0) ∨ (i = .jumpIfFalse m1 m2 ∧ c.toInt = 0)))) := by
  obtain ⟨taken, hexec, htaken⟩ := exec_jump hi s
  rw [hexec] at h
  rcases jumpWhen_cases taken m1 m2 s with ⟨k, hk, hnext⟩ | ⟨c, target, hc, ht, hnext⟩
  · cases hnext.symm.trans h
    exact .inl ⟨k, hk, rfl⟩
  · cases hnext.symm.trans h
    refine .inr ⟨c, target, hc, ht, ?_⟩
    split
    case isTrue hcond => exact .inr ⟨rfl, htaken c hcond⟩
    case isFalse => exact .inl rfl

theorem exec_input_next {m : Mode} (h : exec (.input m) s = .next t) :
    t = s.raise .inputExhausted ∨
      (∃ k, s.DestinationFaults 0 m k ∧ t = (s.setInIdx (s.inIdx + 1)).raise k) ∨
      ∃ d v, s.DestinationIs 0 m d ∧ t = ((s.store d v).setInIdx (s.inIdx + 1)).setIp (s.ip + 1) := by
  rcases execInput_cases m s with ⟨-, hnext⟩ | ⟨v, -, ⟨k, hk, hnext⟩ | ⟨d, hd, hnext⟩⟩
  · cases hnext.symm.trans h
    exact .inl rfl
  · cases hnext.symm.trans h
    exact .inr (.inl ⟨k, hk, rfl⟩)
  · cases hnext.symm.trans h
    exact .inr (.inr ⟨d, v, hd, rfl⟩)

theorem exec_output_next {m : Mode} (h : exec (.output m) s = .next t) :
    (∃ k, s.SourceFaults 0 m k ∧ t = s.raise k) ∨ ∃ a, t = (s.setIp (s.ip + 1)).returnOutput a := by
  rcases execOutput_cases m s with ⟨k, hk, hnext⟩ | ⟨a, -, hnext⟩
  · cases hnext.symm.trans h
    exact .inl ⟨k, hk, rfl⟩
  · cases hnext.symm.trans h
    exact .inr ⟨a, rfl⟩

theorem exec_adjustRelativeBase_next {m : Mode} (h : exec (.adjustRelativeBase m) s = .next t) :
    (∃ k, (s.SourceFaults 0 m k ∨ k = .arithmeticOverflow) ∧ t = s.raise k) ∨
      ∃ r, t = (s.setIp (s.ip + 1)).setRb r := by
  rcases execAdjustRelativeBase_cases m s with ⟨k, hk, hnext⟩ | ⟨a, r, -, -, hnext⟩
  · cases hnext.symm.trans h
    exact .inl ⟨k, hk.imp_right fun ⟨_, ha⟩ => (result64_error ha).1, rfl⟩
  · cases hnext.symm.trans h
    exact .inr ⟨r, rfl⟩

theorem exec_halt_next (h : exec .halt s = .next t) : t = s.returnHalted := by
  cases h
  rfl

end

/-! ### Frames -/

/-- A store at the cell a destination decodes to keeps every other cell, and every other membership in `W`. -/
theorem State.DestinationIs.store_frame {s : State} {k d b : Nat} {m : Mode} (hd : s.DestinationIs k m d) (v : Word)
    (hb : decodeDestination m s.rb (s.literal k) ≠ .ok (b : Int)) :
    (s.store d v).cell b = s.cell b ∧ (b ∈ (s.store d v).written ↔ b ∈ s.written) := by
  have hne : b ≠ d := by
    rintro rfl
    exact hb hd.decodes
  refine ⟨s.store_cell_other v hne, ?_⟩
  rw [State.store_written, State.mem_writtenWith]
  exact or_iff_right fun h => hne h.1

/-- Settles O31: the fault entry keeps cells and `W`; the store keeps all but its own cell. -/
theorem aluFrame : Obligations.AluFrame := by
  intro i m1 m2 m3 s t hi h
  obtain ⟨k, -, rfl⟩ | ⟨d, r, hd, rfl⟩ := exec_alu_next hi h
  · exact ⟨rfl, rfl, rfl, rfl, rfl, fun _ _ => ⟨rfl, Iff.rfl⟩, .inr ⟨k, rfl⟩⟩
  · exact ⟨rfl, rfl, rfl, rfl, rfl, fun b hb => hd.store_frame r hb, .inl ⟨rfl, rfl, rfl, rfl, rfl, rfl, rfl⟩⟩

/-- Settles O32: as O31, with the index advanced before the destination. -/
theorem inputFrame : Obligations.InputFrame := by
  intro m s t h
  obtain rfl | ⟨k, -, rfl⟩ | ⟨d, v, hd, rfl⟩ := exec_input_next h
  · exact ⟨rfl, rfl, rfl, rfl, fun _ _ => ⟨rfl, Iff.rfl⟩, .inr ⟨_, .inl rfl⟩⟩
  · exact ⟨rfl, rfl, rfl, rfl, fun _ _ => ⟨rfl, Iff.rfl⟩, .inr ⟨k, .inr rfl⟩⟩
  · exact ⟨rfl, rfl, rfl, rfl, fun b hb => hd.store_frame v hb, .inl ⟨rfl, rfl, rfl, rfl, rfl, rfl, rfl, rfl⟩⟩

/-- Settles O33: a jump writes `IP` alone, wherever it goes. -/
theorem jumpFrame : Obligations.JumpFrame := by
  intro m1 m2 i s t hi h
  obtain ⟨k, -, rfl⟩ | ⟨c, target, -, -, rfl | ⟨rfl, -⟩⟩ := exec_jump_next hi h
  · exact ⟨fun _ => rfl, rfl, rfl, .inr ⟨k, rfl⟩⟩
  · exact ⟨fun _ => rfl, rfl, rfl, .inl rfl⟩
  · exact ⟨fun _ => rfl, rfl, rfl, .inl rfl⟩

/-- Settles O34: the fault entry, or the new base with `IP` past the instruction. -/
theorem adjustFrame : Obligations.AdjustFrame := by
  intro m s t h
  obtain ⟨k, -, rfl⟩ | ⟨r, rfl⟩ := exec_adjustRelativeBase_next h
  · exact ⟨fun _ => rfl, rfl, .inr ⟨k, rfl⟩⟩
  · exact ⟨fun _ => rfl, rfl, .inl rfl⟩

/-- Settles O35: output's fault entry, and the two returns, which keep the tape and the registers. -/
theorem suspendAndHaltFrame : Obligations.SuspendAndHaltFrame := by
  refine ⟨fun m s t h => ?_, fun s t h => ?_⟩
  · obtain ⟨k, -, rfl⟩ | ⟨a, rfl⟩ := exec_output_next h
    · exact ⟨fun _ => rfl, rfl, rfl, rfl, rfl, rfl, .inr ⟨k, rfl⟩⟩
    · exact ⟨fun _ => rfl, rfl, rfl, rfl, rfl, rfl, .inl ⟨rfl, rfl⟩⟩
  · obtain rfl := exec_halt_next h
    exact ⟨fun _ => rfl, rfl, rfl, rfl, rfl, rfl, rfl, rfl⟩

/-! ### Mode legality -/

/-- No fault over a mode (R115, R119). -/
def FaultKind.NotOfMode (k : FaultKind) : Prop :=
  k ≠ .unknownAddressingMode ∧ k ≠ .invalidWriteMode

theorem State.SourceFaults.notOfMode {s : State} {n : Nat} {m : Mode} {k : FaultKind} (h : s.SourceFaults n m k)
    (hm : m.legalFor .source = true) : k.NotOfMode := by
  rcases h.kind with rfl | ⟨-, d, rfl⟩
  · exact ⟨nofun, nofun⟩
  · cases hm

theorem State.DestinationFaults.notOfMode {s : State} {n : Nat} {m : Mode} {k : FaultKind}
    (h : s.DestinationFaults n m k) (hm : m.legalFor .destination = true) : k.NotOfMode := by
  rcases h.kind with rfl | rfl | ⟨-, rfl⟩ | ⟨-, d, rfl⟩
  · exact ⟨nofun, nofun⟩
  · exact ⟨nofun, nofun⟩
  · cases hm
  · cases hm

theorem wellFormed_alu {i : Instr} {m1 m2 m3 : Mode}
    (hi : i ∈ [Instr.add m1 m2 m3, .multiply m1 m2 m3, .lessThan m1 m2 m3, .equals m1 m2 m3])
    (h : WellFormed i = true) :
    m1.legalFor .source = true ∧ m2.legalFor .source = true ∧ m3.legalFor .destination = true := by
  simp only [List.mem_cons, List.not_mem_nil, or_false] at hi
  obtain rfl | rfl | rfl | rfl := hi
  all_goals simpa [WellFormed, Instr.roles, Instr.modes, Instr.opcode, Opcode.format, Format.roles, modesLegal] using h

theorem wellFormed_jump {i : Instr} {m1 m2 : Mode} (hi : i ∈ [Instr.jumpIfTrue m1 m2, .jumpIfFalse m1 m2])
    (h : WellFormed i = true) : m1.legalFor .source = true ∧ m2.legalFor .source = true := by
  simp only [List.mem_cons, List.not_mem_nil, or_false] at hi
  obtain rfl | rfl := hi
  all_goals simpa [WellFormed, Instr.roles, Instr.modes, Instr.opcode, Opcode.format, Format.roles, modesLegal] using h

theorem wellFormed_input (m : Mode) : WellFormed (.input m) = m.legalFor .destination := Bool.and_true _

theorem wellFormed_output (m : Mode) : WellFormed (.output m) = m.legalFor .source := Bool.and_true _

theorem wellFormed_adjustRelativeBase (m : Mode) : WellFormed (.adjustRelativeBase m) = m.legalFor .source :=
  Bool.and_true _

/-- Settles O30: the state an instruction leaves has no failure to answer, or it is the entry of a fault of a legal
parameter or of the computation. -/
theorem legalModesNeverFault : Obligations.LegalModesNeverFault := by
  intro i s t k hwf hn h hk
  have hkept {u : State} (hu : u.resp = s.resp) (hk : u.resp = some (.failed k)) : k.NotOfMode := by
    cases hn.symm.trans (hu.symm.trans hk)
  cases operation i with
  | alu m1 m2 m3 hi =>
    obtain ⟨h1, h2, h3⟩ := wellFormed_alu hi hwf
    obtain ⟨k', hf, rfl⟩ | ⟨d, r, -, rfl⟩ := exec_alu_next hi h
    · cases hk
      rcases hf with hf | hf | rfl | hf
      · exact hf.notOfMode h1
      · exact hf.notOfMode h2
      · exact ⟨nofun, nofun⟩
      · exact hf.notOfMode h3
    · exact hkept rfl hk
  | jump m1 m2 hi =>
    obtain ⟨h1, h2⟩ := wellFormed_jump hi hwf
    obtain ⟨k', hf, rfl⟩ | ⟨c, target, -, -, rfl | ⟨rfl, -⟩⟩ := exec_jump_next hi h
    · cases hk
      exact hf.elim (·.notOfMode h1) (·.notOfMode h2)
    · exact hkept rfl hk
    · exact hkept rfl hk
  | input m =>
    obtain rfl | ⟨k', hf, rfl⟩ | ⟨d, v, -, rfl⟩ := exec_input_next h
    · cases hk
      exact ⟨nofun, nofun⟩
    · cases hk
      exact hf.notOfMode (wellFormed_input m ▸ hwf)
    · exact hkept rfl hk
  | output m =>
    obtain ⟨k', hf, rfl⟩ | ⟨a, rfl⟩ := exec_output_next h
    · cases hk
      exact hf.notOfMode (wellFormed_output m ▸ hwf)
    · cases hk
  | adjust m =>
    obtain ⟨k', hf, rfl⟩ | ⟨r, rfl⟩ := exec_adjustRelativeBase_next h
    · cases hk
      rcases hf with hf | rfl
      · exact hf.notOfMode (wellFormed_adjustRelativeBase m ▸ hwf)
      · exact ⟨nofun, nofun⟩
    · exact hkept rfl hk
  | halt =>
    obtain rfl := exec_halt_next h
    cases hk

end Sys2Proof.Machine
end

section
/-! SUPPORT. The host's commands and the idle block (spec/45_host_interface.md, spec/70_reset_and_hazards.md): the step
of each command, the control states, and the ways out of a run. -/

namespace Sys2Proof.Machine

/-! ### The step of each command -/

section
variable {s : State} {rest : List Command} (hr : s.running = false)
include hr

theorem step_reset (hp : s.pending = .reset :: rest) : step s = .next { s with pending := rest }.doReset :=
  step_of_pending hr hp

theorem step_stop (hp : s.pending = .stop :: rest) : step s = .next { s with pending := rest }.doStop :=
  step_of_pending hr hp

theorem step_resume_starts {l : List Word} (ha : s.active = true) (hp : s.pending = .resume l :: rest)
    (hl : tooManyInputs s.cfg l = false) : step s = .next ({ s with pending := rest }.startRun l) := by
  rw [step_of_pending hr hp]
  simp [runCommand, resume, ha, hl]

theorem step_resume_refused {l : List Word} (ha : s.active = true) (hp : s.pending = .resume l :: rest)
    (hl : tooManyInputs s.cfg l = true) : step s = .refused .tooManyInputs := by
  rw [step_of_pending hr hp]
  simp [runCommand, resume, ha, hl]

theorem step_of_no_command (hp : s.pending = []) : step s = .next s := by
  simp [step, idleStep, hr, hp]

end

theorem tooManyInputs_eq_true_iff {cfg : Config} {l : List Word} :
    tooManyInputs cfg l = true ↔ ∃ n, cfg.maxInputs = some n ∧ n < l.length := by
  unfold tooManyInputs
  cases cfg.maxInputs <;> simp

/-- Settles O37: `reset` loads `Base` and writes every field. -/
theorem stateAfterReset : Obligations.StateAfterReset := by
  refine fun s => ⟨fun a => ?_, rfl, rfl, rfl, rfl, rfl, rfl, rfl, rfl, rfl⟩
  rw [State.doReset_cell, Memory.base_eq_dite]

/-- Settles O38: power-on is inactive, so its `resume` fails. -/
theorem stateAtPowerOn : Obligations.StateAtPowerOn :=
  fun cfg => ⟨rfl, rfl, fun l rest =>
    step_resume_of_inactive (s := { State.powerOn cfg with pending := .resume l :: rest }) rfl rfl rfl⟩

/-- Settles O39: the step of `reset` is `doReset`, which reads the parameters alone and so may be repeated. -/
theorem resetCommand : Obligations.ResetCommand :=
  ⟨fun _ _ hr hp => step_reset hr hp, fun _ => ⟨rfl, rfl⟩⟩

/-- Settles O40: the step of `stop` is `doStop`, written out. -/
theorem stopCommand : Obligations.StopCommand :=
  fun _ _ hr hp => step_stop hr hp

/-- Settles O41: the guard, the refusal, the start. -/
theorem resumeCommand : Obligations.ResumeCommand :=
  fun _ _ _ hr hp => ⟨fun ha => step_resume_of_inactive hr ha hp,
    fun ha hl => step_resume_refused hr ha hp (tooManyInputs_eq_true_iff.2 hl),
    fun ha hl => step_resume_starts hr ha hp (tooManyInputs_eq_false_iff.2 hl)⟩

/-- Settles O45: the step of `reset`, then that of the `resume` it leaves pending. -/
theorem bootOrder : Obligations.BootOrder := by
  intro cfg l rest hl
  refine ⟨_, _, step_reset rfl rfl, step_resume_starts (s := State.doReset _) rfl rfl rfl
    (tooManyInputs_eq_false_iff.2 hl), rfl, rfl, rfl, rfl, rfl, rfl, rfl, fun a => ?_⟩
  rw [State.startRun_cell]
  exact Memory.base_eq_dite cfg.program a

/-- Settles O46: the output's step, then the step of the `resume`, which finds the run suspended and active. -/
theorem suspensionIsInvisible : Obligations.SuspensionIsInvisible := by
  refine ⟨fun s => step_of_no_command, fun s m a l rest hn ha hact hp hl => ?_⟩
  have hout := hn.step_eq.trans (exec_output_gives ha)
  refine ⟨_, _, hout, rfl, step_resume_starts (s := State.returnOutput _ a) rfl hact hp hl, rfl, hact, ?_, rfl, rfl,
    rfl, rfl, rfl, rfl⟩
  exact Int.add_assoc s.ip 1 1

/-- Settles O43: an output, a halt, a fault in a run, a guard failure, `reset` and `stop`. -/
theorem responsesSetLatches : Obligations.ResponsesSetLatches := by
  refine ⟨fun s m a hact ha => ⟨_, exec_output_gives ha, rfl, hact, rfl, rfl, rfl⟩,
    fun s => ⟨_, rfl, rfl, rfl, rfl, rfl, rfl⟩, fun s t k hr hn h hk => ?_,
    fun s l rest hr ha hp => ⟨_, step_resume_of_inactive hr ha hp, rfl, ha, rfl, rfl, rfl⟩,
    fun s rest hr hp => ⟨_, step_reset hr hp, rfl, rfl, rfl, rfl, rfl⟩,
    fun s rest hr hp => ⟨_, step_stop hr hp, rfl, rfl, rfl, rfl, rfl⟩⟩
  obtain ⟨hact, hlast, -, hcode, -, -, -, -, hout, -⟩ := faultEntryIsPrecise.2 s t k hr hn h hk
  exact ⟨hact, hlast, hout, hcode⟩

/-! ### The control states -/

theorem State.control_eq_running_iff {s : State} : s.control = .running ↔ s.running = true := by
  unfold State.control
  cases s.running <;> cases s.active <;> simp

theorem State.control_eq_idleActive_iff {s : State} :
    s.control = .idleActive ↔ s.running = false ∧ s.active = true := by
  unfold State.control
  cases s.running <;> cases s.active <;> simp

theorem State.control_eq_idleInactive_iff {s : State} :
    s.control = .idleInactive ↔ s.running = false ∧ s.active = false := by
  unfold State.control
  cases s.running <;> cases s.active <;> simp

/-- An instruction goes on with the run as it is, or it is an output, a halt or a fault, which ends it. -/
theorem exec_goes_on_or_ends {i : Instr} {s t : State} (h : exec i s = .next t) :
    (t.running = s.running ∧ t.active = s.active ∧ t.resp = s.resp) ∨
      (∃ m a, i = .output m ∧ t = (s.setIp (s.ip + 1)).returnOutput a) ∨ (i = .halt ∧ t = s.returnHalted) ∨
      ∃ u k, t = State.raise u k := by
  cases operation i with
  | alu m1 m2 m3 hi =>
    obtain ⟨k, -, rfl⟩ | ⟨d, r, -, rfl⟩ := exec_alu_next hi h
    · exact .inr (.inr (.inr ⟨s, k, rfl⟩))
    · exact .inl ⟨rfl, rfl, rfl⟩
  | jump m1 m2 hi =>
    obtain ⟨k, -, rfl⟩ | ⟨c, target, -, -, rfl | ⟨rfl, -⟩⟩ := exec_jump_next hi h
    · exact .inr (.inr (.inr ⟨s, k, rfl⟩))
    · exact .inl ⟨rfl, rfl, rfl⟩
    · exact .inl ⟨rfl, rfl, rfl⟩
  | input m =>
    obtain rfl | ⟨k, -, rfl⟩ | ⟨d, v, -, rfl⟩ := exec_input_next h
    · exact .inr (.inr (.inr ⟨s, _, rfl⟩))
    · exact .inr (.inr (.inr ⟨_, k, rfl⟩))
    · exact .inl ⟨rfl, rfl, rfl⟩
  | output m =>
    obtain ⟨k, -, rfl⟩ | ⟨a, rfl⟩ := exec_output_next h
    · exact .inr (.inr (.inr ⟨s, k, rfl⟩))
    · exact .inr (.inl ⟨m, a, rfl, rfl⟩)
  | adjust m =>
    obtain ⟨k, -, rfl⟩ | ⟨r, rfl⟩ := exec_adjustRelativeBase_next h
    · exact .inr (.inr (.inr ⟨s, k, rfl⟩))
    · exact .inl ⟨rfl, rfl, rfl⟩
  | halt => exact .inr (.inr (.inl ⟨rfl, exec_halt_next h⟩))

/-- The same of a step of a run, with the instruction at `IP`. -/
theorem step_running_goes_on_or_ends {s : State} (hr : s.running = true) :
    ∃ t, step s = .next t ∧
      ((t.running = s.running ∧ t.active = s.active ∧ t.resp = s.resp) ∨
        (∃ u m a, s.NextInstr (.output m) ∧ u.active = s.active ∧ t = State.returnOutput u a) ∨
        (∃ u, s.NextInstr .halt ∧ t = State.returnHalted u) ∨ ∃ u k, t = State.raise u k) := by
  rcases step_running_nextInstr hr with ⟨k, hk⟩ | ⟨i, hi, hstep⟩
  · exact ⟨_, hk, .inr (.inr (.inr ⟨s, k, rfl⟩))⟩
  · obtain ⟨t, ht, -⟩ := exec_shape i (s.setIp (s.ip + 1))
    refine ⟨t, hstep.trans ht, ?_⟩
    rcases exec_goes_on_or_ends ht with hon | ⟨m, a, rfl, rfl⟩ | ⟨rfl, rfl⟩ | hfault
    · exact .inl hon
    · exact .inr (.inl ⟨(s.setIp (s.ip + 1)).setIp (s.ip + 1 + 1), m, a, hi, rfl, rfl⟩)
    · exact .inr (.inr (.inl ⟨_, hi, rfl⟩))
    · exact .inr (.inr (.inr hfault))

/-- Settles O44: the commands from the idle states, what `ACTIVE` is there, and the ways a step of a run goes. -/
theorem controlStateMachine : Obligations.ControlStateMachine := by
  refine ⟨fun s rest hc hp => ?reset, fun s rest hc hp => ?stop, fun s l rest hc hp => ?notActive,
    fun s l rest hc hp hl => ?start, fun s => ⟨fun hc => (State.control_eq_idleInactive_iff.1 hc).2,
      fun hc => (State.control_eq_idleActive_iff.1 hc).2⟩, fun s hc hact hn => ?run⟩
  case reset =>
    have hr : s.running = false := Bool.eq_false_iff.2 (mt State.control_eq_running_iff.2 hc)
    exact ⟨_, step_reset hr hp, rfl, rfl⟩
  case stop =>
    have hr : s.running = false := Bool.eq_false_iff.2 (mt State.control_eq_running_iff.2 hc)
    exact ⟨_, step_stop hr hp, State.control_eq_idleInactive_iff.2 ⟨hr, rfl⟩, rfl⟩
  case notActive =>
    obtain ⟨hr, ha⟩ := State.control_eq_idleInactive_iff.1 hc
    exact ⟨_, step_resume_of_inactive hr ha hp, State.control_eq_idleInactive_iff.2 ⟨hr, ha⟩, rfl⟩
  case start =>
    obtain ⟨hr, ha⟩ := State.control_eq_idleActive_iff.1 hc
    exact ⟨_, step_resume_starts hr ha hp hl, rfl, ha, rfl⟩
  case run =>
    have hr := State.control_eq_running_iff.1 hc
    obtain ⟨t, ht, hways⟩ := step_running_goes_on_or_ends hr
    refine ⟨t, ht, ?_⟩
    obtain ⟨hrun, ha, hresp⟩ | ⟨u, m, a, hi, hu, rfl⟩ | ⟨u, hi, rfl⟩ | ⟨u, k, rfl⟩ := hways
    · exact .inl ⟨State.control_eq_running_iff.2 (hrun.trans hr), ha.trans hact, hresp.trans hn⟩
    · exact .inr (.inl ⟨State.control_eq_idleActive_iff.2 ⟨rfl, hu.trans hact⟩, ⟨a, rfl⟩, m, hi⟩)
    · exact .inr (.inr (.inl ⟨rfl, rfl, hi⟩))
    · exact .inr (.inr (.inr ⟨rfl, k, rfl, rfl⟩))

/-! ### The observation port -/

theorem FaultKind.code_le (k : FaultKind) : k.code ≤ 9 := by
  cases k <;> decide

theorem Last.code_le (l : Last) : l.code ≤ 3 := by
  cases l <;> decide

theorem State.faultCode_of_none {s : State} (h : s.fault = none) : s.faultCode = 0 := by
  rw [State.faultCode, h]

theorem State.faultCode_of_some {s : State} {k : FaultKind} (h : s.fault = some k) : s.faultCode = k.code := by
  rw [State.faultCode, h]

theorem State.faultCode_le (s : State) : s.faultCode ≤ 9 := by
  cases h : s.fault with
  | none => rw [State.faultCode_of_none h]; exact Nat.zero_le 9
  | some k => rw [State.faultCode_of_some h]; exact k.code_le

theorem toNat_append_eq {m n : Nat} (x : BitVec m) (y : BitVec n) : (x ++ y).toNat = x.toNat * 2 ^ n + y.toNat := by
  rw [BitVec.toNat_append, ← Nat.shiftLeft_add_eq_or_of_lt y.isLt, Nat.shiftLeft_eq]

/-- The status word as a number: its three fields at their weights (R232). -/
theorem State.statusWord_toNat (s : State) :
    s.statusWord.toNat = 256 * s.faultCode + 2 * s.last.code + s.active.toNat := by
  have hf := s.faultCode_le
  have hl := s.last.code_le
  simp only [State.statusWord, toNat_append_eq, BitVec.toNat_ofNat, BitVec.toNat_ofBool]
  omega

/-- Settles O47: the fields are read off the status word's value; the tables and the fixed values are computed. -/
theorem registerMap : Obligations.RegisterMap := by
  refine ⟨fun s hr => ?registers, fun s => ?status, ⟨rfl, rfl, rfl, rfl⟩, ⟨rfl, rfl, rfl, rfl, rfl, rfl, rfl, rfl, rfl⟩,
    fun s => ⟨State.faultCode_of_none, fun _ => State.faultCode_of_some⟩, fun cfg index hi => ?reset⟩
  case registers => simp [readRegister, hr]
  case status =>
    have hf := s.faultCode_le
    have hl := s.last.code_le
    rw [s.statusWord_toNat]
    cases s.active <;> simp <;> omega
  case reset =>
    match index, hi with
    | 0, _ => exact ⟨rfl, rfl⟩
    | 1, _ => exact ⟨rfl, rfl⟩
    | 2, _ => simp only [readRegister, State.statusWord_toNat]; exact ⟨rfl, rfl⟩
    | 3, _ => exact ⟨rfl, rfl⟩
    | 4, _ => exact ⟨rfl, rfl⟩

theorem observeCell_of_valid {s : State} {a : Int} (hr : s.running = false) (h : s.ValidAddress a) :
    observeCell s a = .ok (s.cell a.toNat) := by
  unfold observeCell
  rw [if_neg (by simp [hr]), if_neg (not_lt.2 h.1)]
  cases hl : s.cfg.addrLimit with
  | none => rfl
  | some limit => exact if_neg (not_le.2 (h.2 limit hl))

/-- Settles O48: the register map has all five registers, and the port makes the address check of the tape. -/
theorem observationPort : Obligations.ObservationPort := by
  refine fun s hr => ⟨fun index hi => ?_, fun a => observeCell_of_valid hr, fun a ha => by simp [observeCell, hr, ha]⟩
  obtain ⟨h0, h1, h2, h3, h4⟩ := registerMap.1 s hr
  match index, hi with
  | 0, _ => exact ⟨_, h0⟩
  | 1, _ => exact ⟨_, h1⟩
  | 2, _ => exact ⟨_, h2⟩
  | 3, _ => exact ⟨_, h3⟩
  | 4, _ => exact ⟨_, h4⟩

end Sys2Proof.Machine
end

section
/-! SUPPORT. The rules over every step: what keeps the parameters, `RB`, `IP` and the input index (spec/10_state.md
sections 4, 6, 7, spec/40_execute_cycle.md R122, spec/43_control.md R182). -/

namespace Sys2Proof.Machine

theorem ExecShape.cfg_eq {s t : State} (h : ExecShape s t) : t.cfg = s.cfg := by
  cases h <;> rfl

theorem IdleShape.cfg_eq {s t : State} (h : IdleShape s t) : t.cfg = s.cfg := by
  cases h <;> rfl

/-- Settles O49: no shape of a step writes the parameters. -/
theorem parametersNeverChange : Obligations.ParametersNeverChange := by
  intro s t h
  rcases step_cases h with ⟨-, hx⟩ | ⟨-, hx⟩
  · exact hx.cfg_eq
  · exact hx.cfg_eq

/-! ### `RB` -/

theorem exec_rb_eq_or_adjust {i : Instr} {s t : State} (h : exec i s = .next t) :
    t.rb = s.rb ∨ ∃ m, i = .adjustRelativeBase m := by
  cases operation i with
  | alu m1 m2 m3 hi =>
    obtain ⟨-, hrb, -⟩ := aluFrame i m1 m2 m3 s t hi h
    exact .inl hrb
  | jump m1 m2 hi =>
    obtain ⟨-, -, hrb, -⟩ := jumpFrame m1 m2 i s t hi h
    exact .inl hrb
  | input m =>
    obtain ⟨-, hrb, -⟩ := inputFrame m s t h
    exact .inl hrb
  | output m =>
    obtain ⟨-, -, hrb, -⟩ := suspendAndHaltFrame.1 m s t h
    exact .inl hrb
  | halt =>
    obtain ⟨-, -, hrb, -⟩ := suspendAndHaltFrame.2 s t h
    exact .inl hrb
  | adjust m => exact .inr ⟨m, rfl⟩

theorem IdleShape.rb_eq_or_reset {s t : State} (h : IdleShape s t) :
    t.rb = s.rb ∨ ∃ rest, s.pending = .reset :: rest := by
  cases h with
  | reset rest hp => exact .inr ⟨rest, hp⟩
  | wait | stop | notActive | start => exact .inl rfl

/-- Settles O51: the fetch's faults keep `RB`, and so does every other instruction and command. -/
theorem relativeBaseChangesOnlyByAdjust : Obligations.RelativeBaseChangesOnlyByAdjust := by
  intro s t h hne
  rcases step_cases h with ⟨hr, -⟩ | ⟨hr, hx⟩
  · rcases step_running_nextInstr hr with ⟨k, hk⟩ | ⟨i, hi, hstep⟩
    · cases hk.symm.trans h
      exact absurd rfl hne
    · obtain hrb | ⟨m, rfl⟩ := exec_rb_eq_or_adjust (hstep.symm.trans h)
      · exact absurd hrb hne
      · exact .inl ⟨m, hi⟩
  · exact .inr ⟨hr, hx.rb_eq_or_reset.resolve_left hne⟩

/-! ### `IP` -/

theorem paramCount_alu {i : Instr} {m1 m2 m3 : Mode}
    (hi : i ∈ [Instr.add m1 m2 m3, .multiply m1 m2 m3, .lessThan m1 m2 m3, .equals m1 m2 m3]) : i.paramCount = 3 := by
  simp only [List.mem_cons, List.not_mem_nil, or_false] at hi
  obtain rfl | rfl | rfl | rfl := hi <;> rfl

theorem paramCount_jump {i : Instr} {m1 m2 : Mode} (hi : i ∈ [Instr.jumpIfTrue m1 m2, .jumpIfFalse m1 m2]) :
    i.paramCount = 2 := by
  simp only [List.mem_cons, List.not_mem_nil, or_false] at hi
  obtain rfl | rfl := hi <;> rfl

/-- Settles O52: each operation faults, or leaves `IP` past its slots, or is a jump that was taken. -/
theorem onlyTakenJumpsRedirect : Obligations.OnlyTakenJumpsRedirect := by
  intro i s t _ h
  cases operation i with
  | alu m1 m2 m3 hi =>
    obtain ⟨k, -, rfl⟩ | ⟨d, r, -, rfl⟩ := exec_alu_next hi h
    · exact .inl ⟨k, rfl⟩
    · exact .inr (.inl (by rw [paramCount_alu hi]; rfl))
  | jump m1 m2 hi =>
    obtain ⟨k, -, rfl⟩ | ⟨c, target, hc, ht, rfl | ⟨rfl, htaken⟩⟩ := exec_jump_next hi h
    · exact .inl ⟨k, rfl⟩
    · exact .inr (.inl (by rw [paramCount_jump hi]; rfl))
    · exact .inr (.inr ⟨m1, m2, c, target, hc, ht, rfl, htaken⟩)
  | input m =>
    obtain rfl | ⟨k, -, rfl⟩ | ⟨d, v, -, rfl⟩ := exec_input_next h
    · exact .inl ⟨_, rfl⟩
    · exact .inl ⟨k, rfl⟩
    · exact .inr (.inl rfl)
  | output m =>
    obtain ⟨k, -, rfl⟩ | ⟨a, rfl⟩ := exec_output_next h
    · exact .inl ⟨k, rfl⟩
    · exact .inr (.inl rfl)
  | adjust m =>
    obtain ⟨k, -, rfl⟩ | ⟨r, rfl⟩ := exec_adjustRelativeBase_next h
    · exact .inl ⟨k, rfl⟩
    · exact .inr (.inl rfl)
  | halt =>
    obtain rfl := exec_halt_next h
    exact .inr (.inl (Int.add_zero s.ip).symm)

/-! ### The input index -/

theorem exec_inIdx_eq_or_input {i : Instr} {s t : State} (h : exec i s = .next t) :
    t.inIdx = s.inIdx ∨ ((∃ m, i = .input m) ∧ t.inIdx = s.inIdx + 1) := by
  cases operation i with
  | alu m1 m2 m3 hi =>
    obtain ⟨-, -, hidx, -⟩ := aluFrame i m1 m2 m3 s t hi h
    exact .inl hidx
  | jump m1 m2 hi =>
    obtain ⟨k, -, rfl⟩ | ⟨c, target, -, -, rfl | ⟨rfl, -⟩⟩ := exec_jump_next hi h
    · exact .inl rfl
    · exact .inl rfl
    · exact .inl rfl
  | input m =>
    obtain rfl | ⟨k, -, rfl⟩ | ⟨d, v, -, rfl⟩ := exec_input_next h
    · exact .inl rfl
    · exact .inr ⟨⟨m, rfl⟩, rfl⟩
    · exact .inr ⟨⟨m, rfl⟩, rfl⟩
  | output m =>
    obtain ⟨-, -, -, hidx, -⟩ := suspendAndHaltFrame.1 m s t h
    exact .inl hidx
  | adjust m =>
    obtain ⟨k, -, rfl⟩ | ⟨r, rfl⟩ := exec_adjustRelativeBase_next h
    · exact .inl rfl
    · exact .inl rfl
  | halt =>
    obtain ⟨-, -, -, -, hidx, -⟩ := suspendAndHaltFrame.2 s t h
    exact .inl hidx

/-- A shape that ends the run leaves no inputs. -/
theorem ExecShape.inputs_of_ended {s t : State} (h : ExecShape s t) (hr : s.running = true)
    (ht : t.running = false) : t.inputs = [] := by
  cases h with
  | fault | inputFault | output | halt => rfl
  | store | inputStore | goto | adjust => cases hr.symm.trans ht

/-- Settles O53: the call's start, the instructions, and the ends of the call. -/
theorem inputIndexIsPerCall : Obligations.InputIndexIsPerCall := by
  refine ⟨fun s l rest hr ha hp hl => ⟨_, step_resume_starts hr ha hp hl, rfl, rfl⟩,
    fun i s t => exec_inIdx_eq_or_input, fun i s t hr h ht => ?_⟩
  obtain ⟨t', ht', hx⟩ := exec_shape i s
  cases ht'.symm.trans h
  exact hx.inputs_of_ended hr ht

end Sys2Proof.Machine
end

section
/-! SUPPORT. What a run does not read: the host's further commands and the result latches (spec/10_state.md section 8,
spec/45_host_interface.md R222). Two runs that differ in these alone are twins, and a step of both leaves twins. -/

namespace Sys2Proof.Machine

/-- `u` is `s` with the commands `p` still pending and with any latches, or with the same latches where `same` asks
for that. -/
def State.Twin (p : List Command) (same : Prop) (s u : State) : Prop :=
  ∃ f l o, u = { s with pending := p, fault := f, last := l, out := o } ∧
    (same → f = s.fault ∧ l = s.last ∧ o = s.out)

/-- Both answers are next states, and those are twins. -/
def NextTwins (p : List Command) (same : Prop) (x y : Answer) : Prop :=
  ∃ t u, x = .next t ∧ y = .next u ∧ t.Twin p same u

section
variable {p : List Command} {same : Prop} {s u : State}

theorem NextTwins.of_twin (h : s.Twin p same u) : NextTwins p same (.next s) (.next u) :=
  ⟨s, u, rfl, rfl, h⟩

/-! ### The updates of a run keep twins -/

variable (h : s.Twin p same u)
include h

theorem State.Twin.setIp (v : Int) : (s.setIp v).Twin p same (u.setIp v) := by
  obtain ⟨f, l, o, rfl, hsame⟩ := h
  exact ⟨f, l, o, rfl, hsame⟩

theorem State.Twin.atSlot (k : Nat) : (s.atSlot k).Twin p same (u.atSlot k) := by
  obtain ⟨f, l, o, rfl, hsame⟩ := h
  exact ⟨f, l, o, rfl, hsame⟩

theorem State.Twin.setRb (v : Word) : (s.setRb v).Twin p same (u.setRb v) := by
  obtain ⟨f, l, o, rfl, hsame⟩ := h
  exact ⟨f, l, o, rfl, hsame⟩

theorem State.Twin.setInIdx (n : Nat) : (s.setInIdx n).Twin p same (u.setInIdx n) := by
  obtain ⟨f, l, o, rfl, hsame⟩ := h
  exact ⟨f, l, o, rfl, hsame⟩

theorem State.Twin.store (a : Nat) (v : Word) : (s.store a v).Twin p same (u.store a v) := by
  obtain ⟨f, l, o, rfl, hsame⟩ := h
  exact ⟨f, l, o, rfl, hsame⟩

theorem State.Twin.raise (k : FaultKind) : (s.raise k).Twin p same (u.raise k) := by
  obtain ⟨f, l, o, rfl, hsame⟩ := h
  exact ⟨_, _, o, rfl, fun hs => ⟨rfl, rfl, (hsame hs).2.2⟩⟩

theorem State.Twin.returnOutput (v : Word) : (s.returnOutput v).Twin p same (u.returnOutput v) := by
  obtain ⟨f, l, o, rfl, hsame⟩ := h
  exact ⟨_, _, _, rfl, fun _ => ⟨rfl, rfl, rfl⟩⟩

theorem State.Twin.returnHalted : s.returnHalted.Twin p same u.returnHalted := by
  obtain ⟨f, l, o, rfl, hsame⟩ := h
  exact ⟨_, _, _, rfl, fun _ => ⟨rfl, rfl, rfl⟩⟩

/-! ### Twins see the same operands -/

theorem State.Twin.sourceGives {k : Nat} {m : Mode} {v : Word} (hv : s.SourceGives k m v) : u.SourceGives k m v := by
  obtain ⟨f, l, o, rfl, -⟩ := h
  exact hv

theorem State.Twin.sourceFaults {k : Nat} {m : Mode} {f : FaultKind} (hf : s.SourceFaults k m f) :
    u.SourceFaults k m f := by
  obtain ⟨f', l, o, rfl, -⟩ := h
  exact hf

theorem State.Twin.destinationIs {k d : Nat} {m : Mode} (hd : s.DestinationIs k m d) : u.DestinationIs k m d := by
  obtain ⟨f, l, o, rfl, -⟩ := h
  exact hd

theorem State.Twin.destinationFaults {k : Nat} {m : Mode} {f : FaultKind} (hf : s.DestinationFaults k m f) :
    u.DestinationFaults k m f := by
  obtain ⟨f', l, o, rfl, -⟩ := h
  exact hf

/-! ### The operations keep twins -/

theorem withSource_twins {k : Nat} {m : Mode} {rest rest' : Word → State → Answer}
    (hrest : ∀ v, NextTwins p same (rest v (s.atSlot (k + 1))) (rest' v (u.atSlot (k + 1)))) :
    NextTwins p same (withSource m (s.atSlot k) rest) (withSource m (u.atSlot k) rest') := by
  rcases withSource_cases s k m rest with ⟨f, hf, hs⟩ | ⟨v, hv, hs⟩
  · rw [hs, withSource_faults (h.sourceFaults hf)]
    exact .of_twin (h.raise f)
  · rw [hs, withSource_gives (h.sourceGives hv)]
    exact hrest v

theorem withResult_twins (r : Except FaultKind Word) {rest rest' : Word → Answer}
    (hrest : ∀ v, NextTwins p same (rest v) (rest' v)) :
    NextTwins p same (withResult s r rest) (withResult u r rest') := by
  cases r with
  | error k => exact .of_twin (h.raise k)
  | ok v => exact hrest v

theorem writeResult_twins (k : Nat) (m : Mode) (v : Word) :
    NextTwins p same (writeResult m v (s.atSlot k)) (writeResult m v (u.atSlot k)) := by
  rcases writeResult_cases s k m v with ⟨f, hf, hs⟩ | ⟨d, hd, hs⟩
  · rw [hs, writeResult_faults v (h.destinationFaults hf)]
    exact .of_twin (h.raise f)
  · rw [hs, writeResult_of_destinationIs v (h.destinationIs hd)]
    exact .of_twin ((h.store d v).atSlot (k + 1))

/-- The first source parameter, at the slot where the instruction starts. -/
theorem withSource_first_twins {m : Mode} {rest rest' : Word → State → Answer}
    (hrest : ∀ v, NextTwins p same (rest v (s.atSlot 1)) (rest' v (u.atSlot 1))) :
    NextTwins p same (withSource m s rest) (withSource m u rest') := by
  simpa only [State.atSlot_zero] using withSource_twins h (k := 0) hrest

theorem aluOp_twins (f : Word → Word → Except FaultKind Word) (m1 m2 m3 : Mode) :
    NextTwins p same (aluOp f m1 m2 m3 s) (aluOp f m1 m2 m3 u) :=
  withSource_first_twins h fun a => withSource_twins h fun b =>
    withResult_twins (h.atSlot 2) (f a b) fun r => writeResult_twins h 2 m3 r

theorem jumpWhen_twins (taken : Word → Bool) (m1 m2 : Mode) :
    NextTwins p same (jumpWhen taken m1 m2 s) (jumpWhen taken m1 m2 u) := by
  refine withSource_first_twins h fun c => withSource_twins h fun target => ?_
  split
  case isTrue => exact .of_twin ((h.atSlot 2).setIp target.toInt)
  case isFalse => exact .of_twin (h.atSlot 2)

theorem execInput_twins (m : Mode) : NextTwins p same (execInput m s) (execInput m u) := by
  have hin : u.inputs = s.inputs ∧ u.inIdx = s.inIdx := by
    obtain ⟨f, l, o, rfl, -⟩ := h
    exact ⟨rfl, rfl⟩
  unfold execInput
  rw [hin.1, hin.2]
  cases s.inputs[s.inIdx]? with
  | none => exact .of_twin (h.raise .inputExhausted)
  | some v => simpa only [State.atSlot_zero] using writeResult_twins (h.setInIdx (s.inIdx + 1)) 0 m v

theorem execAdjustRelativeBase_twins (m : Mode) :
    NextTwins p same (execAdjustRelativeBase m s) (execAdjustRelativeBase m u) := by
  have hview : u.cfg = s.cfg ∧ u.rb = s.rb := by
    obtain ⟨f, l, o, rfl, -⟩ := h
    exact ⟨rfl, rfl⟩
  refine withSource_first_twins h fun a => ?_
  simp only [State.atSlot_cfg, State.atSlot_rb, hview]
  exact withResult_twins (h.atSlot 1) _ fun r => .of_twin ((h.atSlot 1).setRb r)

theorem exec_twins (i : Instr) : NextTwins p same (exec i s) (exec i u) := by
  have hcfg : u.cfg = s.cfg := by
    obtain ⟨f, l, o, rfl, -⟩ := h
    rfl
  cases i with
  | add m1 m2 m3 => simpa only [exec, execAdd, hcfg] using aluOp_twins h _ m1 m2 m3
  | multiply m1 m2 m3 => simpa only [exec, execMultiply, hcfg] using aluOp_twins h _ m1 m2 m3
  | lessThan m1 m2 m3 => exact aluOp_twins h _ m1 m2 m3
  | equals m1 m2 m3 => exact aluOp_twins h _ m1 m2 m3
  | jumpIfTrue m1 m2 => exact jumpWhen_twins h _ m1 m2
  | jumpIfFalse m1 m2 => exact jumpWhen_twins h _ m1 m2
  | input m => exact execInput_twins h m
  | output m => exact withSource_first_twins h fun a => .of_twin ((h.atSlot 1).returnOutput a)
  | adjustRelativeBase m => exact execAdjustRelativeBase_twins h m
  | halt => exact .of_twin h.returnHalted

/-- Twins in a run fetch the same, and step to twins. -/
theorem step_twins (hr : s.running = true) : NextTwins p same (step s) (step u) := by
  obtain ⟨hur, hip, hvalid, hcell⟩ : u.running = true ∧ u.ip = s.ip ∧ (s.ValidAddress s.ip ↔ u.ValidAddress u.ip) ∧
      s.cell s.ip.toNat = u.cell u.ip.toNat := by
    obtain ⟨f, l, o, rfl, -⟩ := h
    exact ⟨hr, rfl, Iff.rfl, rfl⟩
  by_cases hv : s.ValidAddress s.ip
  · cases hd : decode (s.cell s.ip.toNat) with
    | error e =>
      rw [step_of_decode_error hr hv hd, step_of_decode_error hur (hvalid.1 hv) (hcell ▸ hd)]
      exact .of_twin (h.raise .unknownOpcode)
    | ok i =>
      rw [State.NextInstr.step_eq ⟨hr, hv, hd⟩, State.NextInstr.step_eq ⟨hur, hvalid.1 hv, hcell ▸ hd⟩, hip]
      exact exec_twins (h.setIp (s.ip + 1)) i
  · rw [step_of_invalid_ip hr hv, step_of_invalid_ip hur (mt hvalid.2 hv)]
    exact .of_twin (h.raise .invalidAddress)

end

theorem ExecShape.pending_eq {s t : State} (h : ExecShape s t) : t.pending = s.pending := by
  cases h <;> rfl

/-- Settles O54: a run and its twin with other commands and the same latches. -/
theorem hostHasNoMoveDuringRun : Obligations.HostHasNoMoveDuringRun := by
  intro s p hr
  have htwin : s.Twin p True { s with pending := p } := ⟨_, _, _, rfl, fun _ => ⟨rfl, rfl, rfl⟩⟩
  obtain ⟨t, u, ht, hu, f, l, o, rfl, hsame⟩ := step_twins htwin hr
  obtain ⟨rfl, rfl, rfl⟩ := hsame trivial
  obtain ⟨t', ht', hx⟩ := step_running hr
  cases ht'.symm.trans ht
  exact ⟨t, ht, hx.pending_eq, hu⟩

/-- Settles O55: a run and its twin with the same commands and other latches. -/
theorem latchesAddNoBehaviour : Obligations.LatchesAddNoBehaviour := by
  intro s f l o hr
  have htwin : s.Twin s.pending False { s with fault := f, last := l, out := o } := ⟨f, l, o, rfl, False.elim⟩
  obtain ⟨t, u, ht, hu, f', l', o', rfl, -⟩ := step_twins htwin hr
  obtain ⟨t', ht', hx⟩ := step_running hr
  cases ht'.symm.trans ht
  exact ⟨t, f', l', o', ht, hx.pending_eq ▸ hu⟩

end Sys2Proof.Machine
end

section
/-! SUPPORT. The loader (spec/30_encoding.md R96): what trimming takes off, what the commas split, what an element is,
and when a line is refused. -/

namespace Sys2Proof.Machine

/-! ### Trimming -/

/-- Trimming is the library's drop from the left and then from the right. -/
theorem trimSpace_eq (line : List Char) :
    trimSpace line = (line.dropWhile Char.isWhitespace).rdropWhile Char.isWhitespace := rfl

theorem trimSpace_append (line : List Char) :
    line = line.takeWhile Char.isWhitespace ++ trimSpace line ++
      (line.dropWhile Char.isWhitespace).rtakeWhile Char.isWhitespace := by
  rw [trimSpace_eq, List.append_assoc, List.rdropWhile_append_rtakeWhile, List.takeWhile_append_dropWhile]

/-- What trimming takes off on either side is whitespace. -/
theorem isWhitespace_of_trimmed {line : List Char} {c : Char}
    (h : c ∈ line.takeWhile Char.isWhitespace ++ (line.dropWhile Char.isWhitespace).rtakeWhile Char.isWhitespace) :
    c.isWhitespace = true :=
  (List.mem_append.1 h).elim List.mem_takeWhile_imp List.mem_rtakeWhile_imp

/-- The right trim keeps the front of the left-trimmed line, so that line's first character is the first. -/
theorem trimSpace_head?_isWhitespace {line : List Char} {c : Char} (h : (trimSpace line).head? = some c) :
    c.isWhitespace = false := by
  obtain ⟨rest, hrest⟩ : trimSpace line <+: line.dropWhile Char.isWhitespace := List.rdropWhile_prefix _ _
  have hhead : (line.dropWhile Char.isWhitespace).head? = some c := by
    rw [← hrest, List.head?_append, h, Option.some_or]
  have hnot := List.head?_dropWhile_not Char.isWhitespace line
  rwa [hhead] at hnot

theorem trimSpace_getLast?_isWhitespace {line : List Char} {c : Char} (h : (trimSpace line).getLast? = some c) :
    c.isWhitespace = false := by
  obtain ⟨hne, rfl⟩ := List.mem_getLast?_eq_getLast h
  exact Bool.eq_false_iff.2 (List.rdropWhile_last_not _ _ hne)

/-! ### Splitting at the commas -/

theorem splitCommas_comma (cs : List Char) : splitCommas (',' :: cs) = [] :: splitCommas cs := if_pos rfl

/-- Any other character goes to the front of the first part. -/
theorem splitCommas_cons {c : Char} (hc : c ≠ ',') (cs : List Char) :
    ∃ part parts, splitCommas cs = part :: parts ∧ splitCommas (c :: cs) = (c :: part) :: parts := by
  obtain ⟨part, parts, h⟩ := List.exists_cons_of_ne_nil (splitCommas_ne_nil cs)
  exact ⟨part, parts, h, by simp only [splitCommas, if_neg hc, h]⟩

theorem comma_not_mem_splitCommas (cs : List Char) : ∀ e ∈ splitCommas cs, ',' ∉ e := by
  induction cs with
  | nil => simp [splitCommas]
  | cons c cs ih =>
    by_cases hc : c = ','
    · rw [hc, splitCommas_comma]
      exact List.forall_mem_cons.2 ⟨List.not_mem_nil, ih⟩
    · obtain ⟨part, parts, hcs, hccs⟩ := splitCommas_cons hc cs
      rw [hcs] at ih
      rw [hccs]
      obtain ⟨hpart, hparts⟩ := List.forall_mem_cons.1 ih
      exact List.forall_mem_cons.2 ⟨List.not_mem_cons_of_ne_of_not_mem (Ne.symm hc) hpart, hparts⟩

/-- A character before the first part stands before the whole text. -/
theorem intercalate_cons_head (sep : List Char) (c : Char) (part : List Char) (parts : List (List Char)) :
    sep.intercalate ((c :: part) :: parts) = c :: sep.intercalate (part :: parts) := by
  cases parts with
  | nil => simp
  | cons q qs => simp [List.intercalate_cons_cons]

/-- The parts with commas between them are the text. -/
theorem intercalate_splitCommas (cs : List Char) : [','].intercalate (splitCommas cs) = cs := by
  induction cs with
  | nil => simp [splitCommas]
  | cons c cs ih =>
    by_cases hc : c = ','
    · rw [hc, splitCommas_comma, List.intercalate_cons_of_ne_nil (splitCommas_ne_nil cs), ih]
      rfl
    · obtain ⟨part, parts, hcs, hccs⟩ := splitCommas_cons hc cs
      rw [hccs, intercalate_cons_head, ← hcs, ih]

/-! ### One element -/

theorem of_map_parseDigits {ds : List Char} {f : Nat → Int} {x : Int} (h : (parseDigits ds).map f = some x) :
    ds ≠ [] ∧ (∀ c ∈ ds, isDecimalDigit c) ∧ x = f (decimalValue ds) := by
  obtain ⟨n, hn, rfl⟩ := Option.map_eq_some_iff.1 h
  obtain ⟨hne, hdigits, rfl⟩ := (parseDigits_eq_some ds n).1 hn
  exact ⟨hne, hdigits, rfl⟩

/-- A sign before digits, with their value. -/
theorem parseInteger_signed {ds : List Char} {n : Nat} (h : parseDigits ds = some n) :
    parseInteger ('-' :: ds) = some (-(n : Int)) ∧ parseInteger ('+' :: ds) = some (n : Int) := by
  simp [parseInteger, h]

/-- Digits without a sign: the first one is no sign. -/
theorem parseInteger_unsigned {ds : List Char} {n : Nat} (h : parseDigits ds = some n) :
    parseInteger ds = some (n : Int) := by
  obtain ⟨-, hdigits, -⟩ := (parseDigits_eq_some ds n).1 h
  unfold parseInteger
  split
  case h_1 => exact absurd (hdigits '-' List.mem_cons_self) (by unfold isDecimalDigit; decide)
  case h_2 => exact absurd (hdigits '+' List.mem_cons_self) (by unfold isDecimalDigit; decide)
  case h_3 => rw [h]; rfl

theorem signedValue_of_ne {sign : List Char} (h : sign ≠ ['-']) (digits : List Char) :
    signedValue sign digits = decimalValue digits := if_neg h

/-- An integer is an optional sign and at least one digit (R96). -/
theorem parseInteger_eq_some {cs : List Char} {x : Int} :
    parseInteger cs = some x ↔ ∃ sign ∈ [[], ['+'], ['-']], ∃ digits, cs = sign ++ digits ∧ digits ≠ [] ∧
      (∀ c ∈ digits, isDecimalDigit c) ∧ x = signedValue sign digits := by
  constructor
  · intro h
    unfold parseInteger at h
    split at h
    case h_1 =>
      obtain ⟨hne, hdigits, rfl⟩ := of_map_parseDigits h
      exact ⟨['-'], by simp, _, rfl, hne, hdigits, rfl⟩
    case h_2 =>
      obtain ⟨hne, hdigits, rfl⟩ := of_map_parseDigits h
      exact ⟨['+'], by simp, _, rfl, hne, hdigits, (signedValue_of_ne (by decide) _).symm⟩
    case h_3 =>
      obtain ⟨hne, hdigits, rfl⟩ := of_map_parseDigits h
      exact ⟨[], by simp, _, rfl, hne, hdigits, (signedValue_of_ne (by decide) _).symm⟩
  · rintro ⟨sign, hsign, digits, rfl, hne, hdigits, rfl⟩
    have hn : parseDigits digits = some (decimalValue digits) :=
      (parseDigits_eq_some digits _).2 ⟨hne, hdigits, rfl⟩
    simp only [List.mem_cons, List.not_mem_nil, or_false] at hsign
    obtain rfl | rfl | rfl := hsign
    · rw [signedValue_of_ne (by decide)]
      exact parseInteger_unsigned hn
    · rw [signedValue_of_ne (by decide)]
      exact (parseInteger_signed hn).2
    · exact (parseInteger_signed hn).1

/-- An element is an integer in int64, and the word of that value. -/
theorem parseElement_eq_some {cs : List Char} {w : Word} :
    parseElement cs = some w ↔ ∃ x, parseInteger cs = some x ∧ inInt64 x = true ∧ w.toInt = x := by
  unfold parseElement
  cases parseInteger cs with
  | none => simp
  | some x =>
    by_cases hx : inInt64 x = true
    · have hw : BitVec.ofInt 64 x = w ↔ w.toInt = x := by
        rw [← BitVec.toInt_inj, toInt_ofInt_of_inInt64 hx, eq_comm]
      simp only [hx, if_true, Option.some.injEq, exists_eq_left', true_and, hw]
    · simp only [hx, if_false, Option.some.injEq, exists_eq_left', false_and, reduceCtorEq]

/-! ### The line -/

theorem parseElements_eq_none {es : List (List Char)} :
    parseElements es = none ↔ ∃ e ∈ es, parseElement e = none := by
  induction es with
  | nil => simp [parseElements]
  | cons e es ih =>
    simp only [List.mem_cons, exists_eq_or_imp, ← ih]
    cases he : parseElement e <;> cases hes : parseElements es <;> simp [parseElements, he, hes]

theorem map_parseElement_of_parseElements {es : List (List Char)} {ws : List Word} (h : parseElements es = some ws) :
    ws.map some = es.map parseElement := by
  induction es generalizing ws with
  | nil =>
    cases h
    rfl
  | cons e es ih =>
    unfold parseElements at h
    split at h
    case h_1 w ws' he hes =>
      cases h
      rw [List.map_cons, List.map_cons, he, ih hes]
    case h_2 => cases h

/-- Settles O60: the line by its elements, an element by its sign and digits, the commas, and the trimming. -/
theorem loaderRefusesBadLines : Obligations.LoaderRefusesBadLines := by
  refine ⟨fun line => ⟨parseElements_eq_none, fun image => map_parseElement_of_parseElements⟩, fun e w => ?element,
    fun text => ⟨splitCommas_ne_nil text, comma_not_mem_splitCommas text, intercalate_splitCommas text⟩,
    fun line => ⟨_, _, trimSpace_append line, fun _ => isWhitespace_of_trimmed,
      fun _ => trimSpace_head?_isWhitespace, fun _ => trimSpace_getLast?_isWhitespace⟩⟩
  case element =>
    simp only [parseElement_eq_some, parseInteger_eq_some, inInt64_iff]
    constructor
    · rintro ⟨x, ⟨sign, hsign, digits, he, hne, hdigits, rfl⟩, ⟨hlo, hhi⟩, hw⟩
      exact ⟨sign, hsign, digits, he, hne, hdigits, hlo, hhi, hw⟩
    · rintro ⟨sign, hsign, digits, he, hne, hdigits, hlo, hhi, hw⟩
      exact ⟨_, ⟨sign, hsign, digits, he, hne, hdigits, rfl⟩, ⟨hlo, hhi⟩, hw⟩

end Sys2Proof.Machine
end
